-- ==== Sys2Proof/Word.lean ====
section
/-! DEFINITION. The cell: the one kind of value the hardware has (00_scope R5), and the notation of 00_scope R10.

A cell is a mathematical integer in the range of `W` bits, not a bit vector: the encoding is decimal, no rule slices,
shifts or extends a value, and `W` is open. That every stored value is in range is part of the invariant in
Safety.lean (log entry 3). The type of a cell is written `Int` throughout. -/

namespace Sys2Proof

/-- `2^(W-1)`, the bound of a signed `W`-bit cell (R5). -/
def cellLimit (W : Nat) : Int := ((2 ^ (W - 1) : Nat) : Int)

/-- `inRange(x)` of R10: `-2^(W-1) <= x <= 2^(W-1) - 1`. -/
abbrev inRange (W : Nat) (x : Int) : Prop := -cellLimit W ≤ x ∧ x ≤ cellLimit W - 1

/-- `wrap(x)` of R10: the cell congruent to `x` modulo `2^W`. -/
def wrap (W : Nat) (x : Int) : Int := Int.bmod x (2 ^ W)

/-- `b2c` of R10. -/
def b2c (b : Bool) : Int := if b then 1 else 0

end Sys2Proof
end

