-- ==== Sys2Proof/Config.lean ====
section
/-! DEFINITION. The implementation parameters of 00_scope R5, R7 and R8.

The spec leaves them open and says that the model takes them as an argument (R5). A step takes nothing but a state, so a
state carries them (log entry 1); no step changes them, and a claim about every state is a claim about every `W` and every
policy. The hardware has no value that the spec leaves undefined, so there is no free value here. -/

namespace Sys2Proof

/-- `DECODE_FAILURE_POLICY` (R7). -/
inductive DecodeFailurePolicy where
  | fault
  | skip
  deriving DecidableEq, Repr

/-- `OVERFLOW_POLICY` (R8). -/
inductive OverflowPolicy where
  | fault
  | wrap
  deriving DecidableEq, Repr

/-- The parameters of one implementation. `L` (R6) is the length of the image and stands in the memory; the arbiter's `IMG`,
`N` and `P` (R9) are the inputs of one run and stand in the state. -/
structure Config where
  /-- `W`, the cell width in bits (R5). -/
  width : Nat
  decodePolicy : DecodeFailurePolicy
  overflowPolicy : OverflowPolicy
  deriving DecidableEq, Repr

/-- The spec's default policies (R7, R8). DESIGN CHOICE: the width 64, since R5 gives none (log entry 2). -/
def Config.default : Config :=
  { width := 64, decodePolicy := .fault, overflowPolicy := .fault }

end Sys2Proof
end

