-- ==== Sys2Proof/Syntax.lean ====
section
/-! DEFINITION. The instruction set: the decoder's result (30_encoding R51) and the whole instruction, opcode cell and
operand cells (30_encoding R41), one constructor for each row of opcode_table.json. -/

namespace Sys2Proof

/-- The addressing modes (30_encoding R43). -/
inductive Mode where
  /-- Mode digit 0: the operand value is an address to dereference. -/
  | position
  /-- Mode digit 1: the operand value is used literally. -/
  | immediate
  deriving DecidableEq, Repr

/-- The mode digit of an encoding (30_encoding R43). -/
def Mode.digit : Mode → Nat
  | .position => 0
  | .immediate => 1

/-- The decoded instruction of 30_encoding R51: eight constructors, each with the modes of its source operands only. -/
inductive Operation where
  | add (m1 m2 : Mode)
  | mul (m1 m2 : Mode)
  | read
  | write (m1 : Mode)
  | condJump (polarity : Bool) (m1 m2 : Mode)
  | lessThan (m1 m2 : Mode)
  | equal (m1 m2 : Mode)
  | halt
  deriving DecidableEq, Repr

/-- `arity(d)`, the number of operand cells (30_encoding R46). -/
def Operation.arity : Operation → Nat
  | .add _ _ => 3
  | .mul _ _ => 3
  | .read => 1
  | .write _ => 1
  | .condJump _ _ _ => 2
  | .lessThan _ _ => 3
  | .equal _ _ => 3
  | .halt => 0

/-- The mode of the first operand, where it is a source (30_encoding R46, R51). -/
def Operation.mode1 : Operation → Option Mode
  | .add m1 _ => some m1
  | .mul m1 _ => some m1
  | .read => none
  | .write m1 => some m1
  | .condJump _ m1 _ => some m1
  | .lessThan m1 _ => some m1
  | .equal m1 _ => some m1
  | .halt => none

/-- The mode of the second operand, where it is a source (30_encoding R46, R51). -/
def Operation.mode2 : Operation → Option Mode
  | .add _ m2 => some m2
  | .mul _ m2 => some m2
  | .read => none
  | .write _ => none
  | .condJump _ _ m2 => some m2
  | .lessThan _ m2 => some m2
  | .equal _ m2 => some m2
  | .halt => none

/-- Which operand is the destination, where there is one (30_encoding R46, R49). -/
def Operation.destinationOperand : Operation → Option Nat
  | .add _ _ => some 3
  | .mul _ _ => some 3
  | .read => some 1
  | .write _ => none
  | .condJump _ _ _ => none
  | .lessThan _ _ => some 3
  | .equal _ _ => some 3
  | .halt => none

/-- The instruction (30_encoding R41): the decoded opcode cell and the raw values of the operand cells, `a` the first,
`b` the second, `c` the third. -/
inductive Instr where
  /-- ADD (41_arithmetic R70): sources `a` and `b`, destination `c`. -/
  | add (m1 m2 : Mode) (a b c : Int)
  /-- MUL (41_arithmetic R71): sources `a` and `b`, destination `c`. -/
  | mul (m1 m2 : Mode) (a b c : Int)
  /-- IN (42_io_channels R73): destination `a`. -/
  | inp (a : Int)
  /-- OUT (42_io_channels R74): source `a`. -/
  | out (m1 : Mode) (a : Int)
  /-- JT (43_conditional_jump R83; the numbers 5, 6 and 7 are log entry 15): predicate `a`, target `b`. -/
  | jt (m1 m2 : Mode) (a b : Int)
  /-- JF (43_conditional_jump R84): predicate `a`, target `b`. -/
  | jf (m1 m2 : Mode) (a b : Int)
  /-- LT (44_compare R86): sources `a` and `b`, destination `c`. -/
  | lt (m1 m2 : Mode) (a b c : Int)
  /-- EQ (44_compare R87): sources `a` and `b`, destination `c`. -/
  | eq (m1 m2 : Mode) (a b c : Int)
  /-- HLT (45_halt R88). -/
  | hlt
  deriving DecidableEq, Repr

/-- The decoded opcode cell of an instruction. -/
def Instr.operation : Instr → Operation
  | .add m1 m2 _ _ _ => .add m1 m2
  | .mul m1 m2 _ _ _ => .mul m1 m2
  | .inp _ => .read
  | .out m1 _ => .write m1
  | .jt m1 m2 _ _ => .condJump true m1 m2
  | .jf m1 m2 _ _ => .condJump false m1 m2
  | .lt m1 m2 _ _ _ => .lessThan m1 m2
  | .eq m1 m2 _ _ _ => .equal m1 m2
  | .hlt => .halt

/-- The operand cells, in encoding order (30_encoding R41). -/
def Instr.operands : Instr → List Int
  | .add _ _ a b c => [a, b, c]
  | .mul _ _ a b c => [a, b, c]
  | .inp a => [a]
  | .out _ a => [a]
  | .jt _ _ a b => [a, b]
  | .jf _ _ a b => [a, b]
  | .lt _ _ a b c => [a, b, c]
  | .eq _ _ a b c => [a, b, c]
  | .hlt => []

/-- The length in cells, opcode cell and operand cells (30_encoding R46). -/
def Instr.length (i : Instr) : Nat := 1 + i.operation.arity

/-- The destination address of the instructions that have a destination operand (30_encoding R46, R54). -/
def Instr.destination : Instr → Option Int
  | .add _ _ _ _ c => some c
  | .mul _ _ _ _ c => some c
  | .inp a => some a
  | .out _ _ => none
  | .jt _ _ _ _ => none
  | .jf _ _ _ _ => none
  | .lt _ _ _ _ c => some c
  | .eq _ _ _ _ c => some c
  | .hlt => none

end Sys2Proof
end

