-- ==== Sys2Proof/WellFormed.lean ====
section
/-! DEFINITION. Which instructions an encoding of width `W` can hold: every operand is one whole cell (30_encoding R41,
00_scope R5), so its value is in the cell range. -/

namespace Sys2Proof

/-- Every operand cell holds a `W`-bit value (R5, R41). -/
abbrev Instr.WellFormed (W : Nat) (i : Instr) : Prop := ∀ x ∈ i.operands, inRange W x

end Sys2Proof
end

