-- ==== Sys2Proof/Decode.lean ====
section
/-! DEFINITION. The decoder (30_encoding R41 to R52), and after it the encoder (30_encoding R42, R56).

The encoding is decimal. The decoder proper, `decodeOp`, is a pure total function of one cell (R50, R52). `decodeCells` adds
the operand cells (R41). A decode failure carries the reason by name; the engine treats every reason as the one `Invalid`
of R50. -/

namespace Sys2Proof

/-- Why a cell, or a list of cells, is no instruction (log entry 21). -/
inductive DecodeError where
  /-- The opcode cell is negative (30_encoding R44). -/
  | negative (v : Int)
  /-- The low two digits select no operation (30_encoding R45). -/
  | unknownOpcode (op : Nat)
  /-- The mode digit of operand `operand` is 2 to 9 (30_encoding R48 for a source, R49 for a destination). -/
  | badMode (operand digit : Nat)
  /-- The cells end before the instruction does (30_encoding R41); only a list of cells can show it. -/
  | truncated
  deriving DecidableEq, Repr

/-! ## Decimal fields -/

/-- `digit(v, k)` of 00_scope R10: the decimal digit of weight `10^k`. -/
def digit (v k : Nat) : Nat := v / 10 ^ k % 10

/-- The operation selector, the low two decimal digits (30_encoding R42). -/
def selector (v : Nat) : Nat := v % 100

/-- The mode of operand `i`, counted from 1 (30_encoding R42, R43); 2 to 9 is a decode failure (R48, R49). -/
def operandMode (v i : Nat) : Except DecodeError Mode :=
  match digit v (i + 1) with
  | 0 => .ok .position
  | 1 => .ok .immediate
  | d => .error (.badMode i d)

/-! ## The decoder (30_encoding R50) -/

/-- Format F3 (30_encoding R46): two source modes are kept, the destination's digit is checked and dropped (R49). -/
def decodeF3 (v : Nat) (mk : Mode → Mode → Operation) : Except DecodeError Operation :=
  match operandMode v 1, operandMode v 2, operandMode v 3 with
  | .ok m1, .ok m2, .ok _ => .ok (mk m1 m2)
  | .error e, _, _ => .error e
  | .ok _, .error e, _ => .error e
  | .ok _, .ok _, .error e => .error e

/-- Format F2 (30_encoding R46): both operands are sources. -/
def decodeF2 (v : Nat) (mk : Mode → Mode → Operation) : Except DecodeError Operation :=
  match operandMode v 1, operandMode v 2 with
  | .ok m1, .ok m2 => .ok (mk m1 m2)
  | .error e, _ => .error e
  | .ok _, .error e => .error e

/-- Format F1 (30_encoding R46): one operand; for IN it is a destination and `mk` drops the mode (R49). -/
def decodeF1 (v : Nat) (mk : Mode → Operation) : Except DecodeError Operation :=
  match operandMode v 1 with
  | .ok m1 => .ok (mk m1)
  | .error e => .error e

/-- The decoder: one cell to an operation or a named decode failure (30_encoding R50). The opcode map is R45. -/
def decodeOp (v : Int) : Except DecodeError Operation :=
  if v < 0 then .error (.negative v)
  else
    let n := v.toNat
    match selector n with
    | 1 => decodeF3 n .add
    | 2 => decodeF3 n .mul
    | 3 => decodeF1 n (fun _ => .read)
    | 4 => decodeF1 n .write
    | 5 => decodeF2 n (.condJump true)
    | 6 => decodeF2 n (.condJump false)
    | 7 => decodeF3 n .lessThan
    | 8 => decodeF3 n .equal
    | 99 => .ok .halt
    | op => .error (.unknownOpcode op)

/-- The length rule of 30_encoding R55: `1 + arity` when the cell decodes, and 1 when it does not. -/
def lengthAt (v : Int) : Nat :=
  match decodeOp v with
  | .ok d => 1 + d.arity
  | .error _ => 1

/-! ## Opcode cell and operand cells (30_encoding R41) -/

/-- Take one operand cell from a list. -/
def take1 (mk : Int → Instr) : List Int → Except DecodeError (Instr × List Int)
  | a :: rest => .ok (mk a, rest)
  | [] => .error .truncated

/-- Take two operand cells from a list. -/
def take2 (mk : Int → Int → Instr) : List Int → Except DecodeError (Instr × List Int)
  | a :: b :: rest => .ok (mk a b, rest)
  | [_] => .error .truncated
  | [] => .error .truncated

/-- Take three operand cells from a list. -/
def take3 (mk : Int → Int → Int → Instr) : List Int → Except DecodeError (Instr × List Int)
  | a :: b :: c :: rest => .ok (mk a b c, rest)
  | [_, _] => .error .truncated
  | [_] => .error .truncated
  | [] => .error .truncated

/-- The instruction of a decoded opcode cell and the cells that follow it (30_encoding R41, R46). -/
def Operation.takeOperands (d : Operation) (cells : List Int) : Except DecodeError (Instr × List Int) :=
  match d with
  | .add m1 m2 => take3 (.add m1 m2) cells
  | .mul m1 m2 => take3 (.mul m1 m2) cells
  | .read => take1 .inp cells
  | .write m1 => take1 (.out m1) cells
  | .condJump true m1 m2 => take2 (.jt m1 m2) cells
  | .condJump false m1 m2 => take2 (.jf m1 m2) cells
  | .lessThan m1 m2 => take3 (.lt m1 m2) cells
  | .equal m1 m2 => take3 (.eq m1 m2) cells
  | .halt => .ok (.hlt, cells)

/-- Decode the instruction at the head of a list of cells; the rest of the list comes back with it. -/
def decodeCells : List Int → Except DecodeError (Instr × List Int)
  | [] => .error .truncated
  | v :: rest =>
    match decodeOp v with
    | .ok d => d.takeOperands rest
    | .error e => .error e

/-! ## The encoder (30_encoding R56): opcode `op + 100·m1 + 1000·m2`, destination mode digits 0, then the operands -/

/-- The operation selector of an operation (30_encoding R45). -/
def Operation.selector : Operation → Nat
  | .add _ _ => 1
  | .mul _ _ => 2
  | .read => 3
  | .write _ => 4
  | .condJump true _ _ => 5
  | .condJump false _ _ => 6
  | .lessThan _ _ => 7
  | .equal _ _ => 8
  | .halt => 99

/-- The mode digits of the source operands at their weights (30_encoding R42, R56). -/
def Operation.modeDigits : Operation → Nat
  | .add m1 m2 => 100 * m1.digit + 1000 * m2.digit
  | .mul m1 m2 => 100 * m1.digit + 1000 * m2.digit
  | .read => 0
  | .write m1 => 100 * m1.digit
  | .condJump _ m1 m2 => 100 * m1.digit + 1000 * m2.digit
  | .lessThan m1 m2 => 100 * m1.digit + 1000 * m2.digit
  | .equal m1 m2 => 100 * m1.digit + 1000 * m2.digit
  | .halt => 0

/-- The canonical opcode cell (30_encoding R56). -/
def Operation.opcode (d : Operation) : Int := ((d.selector + d.modeDigits : Nat) : Int)

/-- The cells of an instruction (30_encoding R41, R56). -/
def encode (i : Instr) : List Int := i.operation.opcode :: i.operands

/-! ## Assembler notation (30_encoding R56) -/

/-- A source operand: `[a]` in Position mode, `#a` in Immediate mode. -/
def sourceText (m : Mode) (x : Int) : String :=
  match m with
  | .position => "[" ++ toString x ++ "]"
  | .immediate => "#" ++ toString x

/-- An instruction in the notation of 30_encoding R56. -/
def Instr.text : Instr → String
  | .add m1 m2 a b c => "ADD " ++ sourceText m1 a ++ ", " ++ sourceText m2 b ++ ", " ++ sourceText .position c
  | .mul m1 m2 a b c => "MUL " ++ sourceText m1 a ++ ", " ++ sourceText m2 b ++ ", " ++ sourceText .position c
  | .inp a => "IN " ++ sourceText .position a
  | .out m1 a => "OUT " ++ sourceText m1 a
  | .jt m1 m2 a b => "JT " ++ sourceText m1 a ++ ", " ++ sourceText m2 b
  | .jf m1 m2 a b => "JF " ++ sourceText m1 a ++ ", " ++ sourceText m2 b
  | .lt m1 m2 a b c => "LT " ++ sourceText m1 a ++ ", " ++ sourceText m2 b ++ ", " ++ sourceText .position c
  | .eq m1 m2 a b c => "EQ " ++ sourceText m1 a ++ ", " ++ sourceText m2 b ++ ", " ++ sourceText .position c
  | .hlt => "HLT"

/-! ## A table word as cells

The table numbers the bits of an instruction from the first word up. A word of this hardware is a cell, so bits
`W·j .. W·j + W-1` are cell `j`, read as a two's-complement number (log entry 12). -/

/-- The longest instruction, in cells (30_encoding R46). -/
def maxLength : Nat := 4

/-- The four cells that hold the low `nbits` bits of `w`, every further bit 0. -/
def tableCells (W nbits w : Nat) : List Int :=
  (List.range maxLength).map (fun j => wrap W ((w % 2 ^ nbits / 2 ^ (W * j) % 2 ^ W : Nat) : Int))

/-- The instruction the decoder reads from a table word, its cells `Config.default.width` bits wide. -/
def decodeTableWord (nbits w : Nat) : Option Instr :=
  match decodeCells (tableCells Config.default.width nbits w) with
  | .ok (i, _) => some i
  | .error _ => none

end Sys2Proof
end

