-- ==== Sys2Proof/Machine/State.lean ====
section
/-! DEFINITION. The state of the block set: the machine instance of 10_state R13, the pipeline arbiter of R22, the peers'
signals on the channel ports (42_io_channels R80), and the parameters. Plain data throughout. -/

namespace Sys2Proof.Machine

/-! ## Memory (10_state R14) -/

/-- The memory image `mem[0 .. L-1]` (10_state R14). `len` is `L`. `cells` lists the cells that are not 0, by strictly
rising address, so that equal memories are equal data; a cell below `len` that is not listed holds 0 (log entry 4). -/
structure Memory where
  len : Nat
  cells : List (Nat × Int)
  deriving DecidableEq, Repr

/-! ## Faults (60_exceptions R102) -/

/-- The kind of a memory access (20_memory R29, R30). -/
inductive AccessKind where
  | fetch
  | operand
  | load
  | store
  deriving DecidableEq, Repr

/-- The direction of a channel (60_exceptions R102). -/
inductive Direction where
  | inbound
  | outbound
  deriving DecidableEq, Repr

/-- The operation named in an overflow record (60_exceptions R102). -/
inductive ArithOp where
  | add
  | mul
  deriving DecidableEq, Repr

/-- The machine faults of 60_exceptions R102, each with its record. A step that raises one is a NEXT state with the status
Faulted (60_exceptions R105); the fault is the outcome of a step asked of a machine that is already Faulted, which has no
step (40_decode_execute R65). -/
inductive Fault where
  /-- Code 1. Raised by the engine when the opcode cell `v` at `pc` does not decode and `DECODE_FAILURE_POLICY = fault`
  (R59). Safe: the reference software goes on there (92 D2). -/
  | invalidOpcode (pc : Int) (v : Int)
  /-- Code 2. Raised by the fetch, an operand-cell read, a Position-mode source or a destination outside `0 .. L-1`
  (R58, R60, R53, R54). Safe: it is the spec's own fault. -/
  | addressOutOfRange (pc : Int) (address : Int) (kind : AccessKind)
  /-- Code 3. Raised by IN or OUT when the channel's peer is gone (42_io_channels R77). Safe: it is the spec's own fault. -/
  | channelDisconnected (pc : Int) (direction : Direction)
  /-- Code 4. Raised by ADD or MUL whose exact result is no cell when `OVERFLOW_POLICY = fault` (41_arithmetic R72).
  Safe: the reference software may go on there (92 D3). -/
  | arithmeticOverflow (pc : Int) (op : ArithOp) (a b : Int)
  deriving DecidableEq, Repr

/-- The arbiter faults of 60_exceptions R102, each with its record. -/
inductive ArbiterFault where
  /-- Code 16: `length(P)` is not `N` (46_pipeline R90). -/
  | pipelineArity (stages supplied : Nat)
  /-- Code 17: the machine of stage `k` faulted with `f` (46_pipeline R97). -/
  | stageFault (k : Nat) (f : Fault)
  /-- Code 18: stage `k` halted having taken `fed < 2` inputs (46_pipeline R96). -/
  | stageUnconsumedInput (k fed : Nat)
  /-- Code 19: stage `k` halted having emitted `count` outputs, not one (46_pipeline R95). -/
  | stageOutputCount (k count : Nat)
  deriving DecidableEq, Repr

/-- Why an instruction has no meaning in the model. The spec stops no instruction, so no meaning ever refuses. -/
inductive Refusal where
  /-- Answered only by an arm of `exec` for an instruction that has no meaning yet; no arm is left so. Safe. -/
  | notModelled (mnemonic : String)
  deriving DecidableEq, Repr

/-! ## Status and trace -/

/-- The run status (10_state R13, R16, R17). -/
inductive Status where
  | running
  | halted
  | faulted (f : Fault)
  deriving DecidableEq, Repr

/-- The events of the trace (10_state R24). -/
inductive Event where
  | input (v : Int)
  | output (v : Int)
  | decodeError (pc : Int) (v : Int)
  | halt
  | fault (f : Fault)
  deriving DecidableEq, Repr

/-- The arbiter's status (10_state R22). -/
inductive ArbiterStatus where
  | idle
  | stage
  | done (result : Int)
  | afaulted (g : ArbiterFault)
  deriving DecidableEq, Repr

/-! ## Whose turn it is (40_decode_execute R68; log entry 7) -/

/-- What the host may do in a turn of its own (42_io_channels R82, 46_pipeline R100, 70_reset_and_hazards R115). -/
inductive HostAct where
  /-- Offer `v` on the inbound channel: raise `in_valid` with `in_data = v` (R80, R81). -/
  | offer (v : Int)
  /-- Raise or lower `out_ready` (R80, R81). -/
  | setReady (ready : Bool)
  /-- Drop the inbound channel's send half (R77). -/
  | dropInbound
  /-- Drop the outbound channel's receive half (R77). -/
  | dropOutbound
  /-- Reset the standalone machine with image `img` (70_reset_and_hazards R114). -/
  | reset (img : List Int)
  /-- Drive the arbiter's `img` port, at any time (46_pipeline R100; log entry 13). -/
  | setImage (img : List Int)
  /-- A `start` pulse of the arbiter with its inputs (46_pipeline R100). -/
  | start (img : List Int) (stages : Nat) (phases : List Int)
  /-- Power-up of the block set (70_reset_and_hazards R115). -/
  | powerUp
  deriving DecidableEq, Repr

/-- One turn: of the core (with the arbiter that drives it), or of the host. -/
inductive Turn where
  | core
  | host (act : HostAct)
  deriving DecidableEq, Repr

/-! ## The state -/

/-- The state (10_state R13, R22). One core serves as the standalone machine and, while the arbiter's status is Stage, as
the stage's machine `M` (46_pipeline R91; log entry 6). -/
structure State where
  /-- The parameters `W` and the two policies; no step changes them (R13; log entry 1). -/
  cfg : Config
  /-- The memory image (R14). -/
  mem : Memory
  /-- The program counter, an unbounded integer (R15). -/
  pc : Int
  /-- The run status (R16, R17). -/
  status : Status
  /-- The inbound channel still has a sending peer (R20). -/
  inConn : Bool
  /-- The outbound channel still has a receiving peer (R20). -/
  outConn : Bool
  /-- The event trace, oldest first (R24). -/
  trace : List Event
  /-- The value the host offers: `in_valid` and `in_data` (42_io_channels R80). -/
  inOffer : Option Int
  /-- The host accepts a value: `out_ready` (42_io_channels R80). -/
  outReady : Bool
  /-- The arbiter's status (R22). -/
  astatus : ArbiterStatus
  /-- The index of the current stage (R22). -/
  k : Nat
  /-- The running carry (R22). -/
  carry : Int
  /-- How many of its two inputs the current stage has taken (R22). -/
  fed : Nat
  /-- What the current stage has emitted (R22). -/
  outs : List Int
  /-- `IMG` on the arbiter's `img` port, read at each stage's reset (00_scope R9, 46_pipeline R100; log entry 13). -/
  img : List Int
  /-- `N` of the arbiter's run (00_scope R9; log entry 13). -/
  nStages : Nat
  /-- `P` of the arbiter's run (00_scope R9; log entry 13). -/
  phases : List Int
  /-- The model's own: which agent moves next (40_decode_execute R68; log entry 7). Empty: the core, from here on. -/
  turns : List Turn
  deriving DecidableEq, Repr

/-- The machine right after reset (10_state R25, R26; 70_reset_and_hazards R114, R115) with the empty image, since a program
comes from a loader (70_reset_and_hazards R116; log entry 5). The parameters are those of `Config.default`; the peers'
signals and the turns are DESIGN CHOICES (log entries 7, 11 and 13). -/
def State.reset : State :=
  { cfg := Config.default
    mem := { len := 0, cells := [] }
    pc := 0
    status := .running
    inConn := true
    outConn := true
    trace := []
    inOffer := none
    outReady := false
    astatus := .idle
    k := 0
    carry := 0
    fed := 0
    outs := []
    img := []
    nStages := 0
    phases := []
    turns := [] }

end Sys2Proof.Machine
end

