-- ==== Sys2Proof/Machine/Ops.lean ====
section
/-! DEFINITION. The named operations over memory and the program counter, and taking a fault. -/

namespace Sys2Proof.Machine

/-! ## Memory: reading and writing one whole cell (20_memory R28 to R31) -/

/-- An address is valid when `0 <= a < L` (20_memory R28). -/
abbrev Memory.Valid (m : Memory) (a : Int) : Prop := 0 ≤ a ∧ a < (m.len : Int)

/-- The value of the cell at address `a` in a list of cells; a cell that is not listed is 0 (log entry 4). -/
def lookupCell : List (Nat × Int) → Nat → Int
  | [], _ => 0
  | (b, v) :: rest, a => if a = b then v else lookupCell rest a

/-- Put a cell at the head of a list of cells, where the value 0 is not listed. -/
def consCell (a : Nat) (v : Int) (rest : List (Nat × Int)) : List (Nat × Int) :=
  if v = 0 then rest else (a, v) :: rest

/-- Set the cell at address `a` in a list of cells sorted by address; the value 0 is not listed. -/
def putCell : List (Nat × Int) → Nat → Int → List (Nat × Int)
  | [], a, v => consCell a v []
  | (b, u) :: rest, a, v =>
    if a < b then consCell a v ((b, u) :: rest)
    else if a = b then consCell a v rest
    else (b, u) :: putCell rest a v

/-- The listed form: addresses strictly rising from `lo`, all below `hi`, no listed value 0. -/
def canonicalFrom (lo hi : Nat) : List (Nat × Int) → Bool
  | [] => true
  | (a, v) :: rest => decide (lo ≤ a) && decide (a < hi) && decide (v ≠ 0) && canonicalFrom (a + 1) hi rest

/-- The canonical form of a memory. -/
def Memory.wf (m : Memory) : Bool := canonicalFrom 0 m.len m.cells

/-- The cell at address `a`, and nothing where the address is not valid (20_memory R28, R29). -/
def Memory.read (m : Memory) (a : Int) : Option Int :=
  if m.Valid a then some (lookupCell m.cells a.toNat) else none

/-- `mem[a] <- v` at a valid address (20_memory R30); a memory never grows, so nothing happens at any other. -/
def Memory.write (m : Memory) (a : Int) (v : Int) : Memory :=
  if m.Valid a then { m with cells := putCell m.cells a.toNat v } else m

/-- The cells of an image from address `a` up. -/
def cellsOfImage : Nat → List Int → List (Nat × Int)
  | _, [] => []
  | a, v :: rest => consCell a v (cellsOfImage (a + 1) rest)

/-- The memory an image is loaded into (70_reset_and_hazards R114): `L` its length, `mem[a] = IMG[a]`. -/
def Memory.ofImage (img : List Int) : Memory := { len := img.length, cells := cellsOfImage 0 img }

/-- Write the cells `vs` at `a` and up; used only to place an instruction from outside (log entry 12). -/
def Memory.writeAll (m : Memory) (a : Int) : List Int → Memory
  | [] => m
  | v :: rest => (m.write a v).writeAll (a + 1) rest

/-- Make a memory at least `n` cells long, the new cells 0; no step of the machine does this (20_memory R28). -/
def Memory.growTo (m : Memory) (n : Nat) : Memory := { m with len := max m.len n }

/-! ## Operations on the state -/

/-- `MemRead(a, kind)` (20_memory R29). -/
def State.memRead (s : State) (a : Int) (kind : AccessKind) : Except Fault Int :=
  match s.mem.read a with
  | some v => .ok v
  | none => .error (.addressOutOfRange s.pc a kind)

/-- The store of `MemWrite(a, v)` (20_memory R30), its address already checked by `State.dst`. -/
def State.memWrite (s : State) (a : Int) (v : Int) : State := { s with mem := s.mem.write a v }

/-- Append an event to the trace (10_state R24). -/
def State.emit (s : State) (e : Event) : State := { s with trace := s.trace ++ [e] }

/-- Set the program counter to the instruction's address plus its length (40_decode_execute R61). -/
def State.advance (s : State) (length : Int) : State := { s with pc := s.pc + length }

/-- Take the fault `f` (60_exceptions R105, 40_decode_execute R62): the status becomes Faulted with the record, the fault
goes to the trace, `mem` and `pc` stay as they were at the start of the step. There is no vector, no handler, no saved
context, and no return: only a reset leaves Faulted (60_exceptions R106). Log entry 8. -/
def State.raise (s : State) (f : Fault) : State :=
  { s with status := .faulted f, trace := s.trace ++ [.fault f] }

/-- End an instruction (40_decode_execute R62): all of its effects, or the fault and none of them. -/
def State.complete (s : State) : Except Fault State → Host.Outcome State Fault Refusal
  | .ok t => .next t
  | .error f => .next (s.raise f)

/-- The machine reset with image `img` (70_reset_and_hazards R114), the only way out of Halted and Faulted (R113). The
channels are made anew with the machine (10_state R20), so no peer offers or accepts yet (log entry 11). -/
def State.resetCore (s : State) (img : List Int) : State :=
  { s with
    mem := Memory.ofImage img
    pc := 0
    status := .running
    inConn := true
    outConn := true
    trace := []
    inOffer := none
    outReady := false }

/-- The arbiter is running a stage: `busy` of 46_pipeline R100. Its feeder and drainer then hold the complementary halves of
the core's channels (R91); otherwise the host holds them. -/
def State.busy (s : State) : Bool :=
  match s.astatus with
  | .idle => false
  | .stage => true
  | .done _ => false
  | .afaulted _ => false

end Sys2Proof.Machine
end

