-- ==== Sys2Proof/Machine/Operands.lean ====
section
/-! DEFINITION. Every operand form: sources in Position and Immediate mode (30_encoding R53), destinations (R54), and the
fetch of the operand cells (40_decode_execute R60). -/

namespace Sys2Proof.Machine

/-- The value a source operand `x` resolves to under its mode, when it has one (30_encoding R53). -/
def State.source (s : State) (m : Mode) (x : Int) : Option Int :=
  match m with
  | .immediate => some x
  | .position => s.mem.read x

/-- `Val(i)` (30_encoding R53): a Position-mode source out of range raises `AddressOutOfRange`. -/
def State.val (s : State) (m : Mode) (x : Int) : Except Fault Int :=
  match m with
  | .immediate => .ok x
  | .position => s.memRead x .load

/-- `Dst(i)` with its range check (30_encoding R54, 40_decode_execute R63 step 5). -/
def State.dst (s : State) (x : Int) : Except Fault Int :=
  if s.mem.Valid x then .ok x else .error (.addressOutOfRange s.pc x .store)

/-- `Operand(i)`: the raw value of the operand cell at `pc + i` (30_encoding R41, 40_decode_execute R60). -/
def State.operand (s : State) (i : Nat) : Except Fault Int := s.memRead (s.pc + i) .operand

/-- Fetch one operand cell. -/
def State.fetch1 (s : State) (mk : Int → Instr) : Except Fault Instr := do
  let a ← s.operand 1
  return mk a

/-- Fetch two operand cells, in order. -/
def State.fetch2 (s : State) (mk : Int → Int → Instr) : Except Fault Instr := do
  let a ← s.operand 1
  let b ← s.operand 2
  return mk a b

/-- Fetch three operand cells, in order. -/
def State.fetch3 (s : State) (mk : Int → Int → Int → Instr) : Except Fault Instr := do
  let a ← s.operand 1
  let b ← s.operand 2
  let c ← s.operand 3
  return mk a b c

/-- The operand fetch of 40_decode_execute R60: every operand cell, those a not-taken jump would not use among them. -/
def State.fetchOperands (s : State) : Operation → Except Fault Instr
  | .add m1 m2 => s.fetch3 (.add m1 m2)
  | .mul m1 m2 => s.fetch3 (.mul m1 m2)
  | .read => s.fetch1 .inp
  | .write m1 => s.fetch1 (.out m1)
  | .condJump true m1 m2 => s.fetch2 (.jt m1 m2)
  | .condJump false m1 m2 => s.fetch2 (.jf m1 m2)
  | .lessThan m1 m2 => s.fetch3 (.lt m1 m2)
  | .equal m1 m2 => s.fetch3 (.eq m1 m2)
  | .halt => .ok .hlt

/-- What the fetch and decode of a step find. -/
inductive Fetched where
  /-- A decoded instruction with its operand cells. -/
  | instr (i : Instr)
  /-- The opcode cell `v` is a decode failure (40_decode_execute R59). -/
  | invalid (v : Int)
  /-- The opcode cell or an operand cell is out of range (40_decode_execute R58, R60). -/
  | outside (f : Fault)
  deriving DecidableEq, Repr

/-- Fetch, decode, operand fetch (40_decode_execute R57, in the order of R63 steps 1 to 3). -/
def State.fetch (s : State) : Fetched :=
  match s.memRead s.pc .fetch with
  | .error f => .outside f
  | .ok v =>
    match decodeOp v with
    | .error _ => .invalid v
    | .ok d =>
      match s.fetchOperands d with
      | .ok i => .instr i
      | .error f => .outside f

end Sys2Proof.Machine
end

