-- ==== Sys2Proof/Machine/Flags.lean ====
section
/-! DEFINITION. The hardware has no flags and no condition codes (10_state R18). What stands in a flag's place is the
integer law of ADD and MUL (41_arithmetic R72); a comparison writes 1 or 0 to memory by `b2c` (44_compare R86, R87). -/

namespace Sys2Proof.Machine

/-- The integer law (41_arithmetic R72): `r` is the exact result of `op` on `a` and `b`. -/
def State.integerLaw (s : State) (op : ArithOp) (a b r : Int) : Except Fault Int :=
  if inRange s.cfg.width r then .ok r
  else
    match s.cfg.overflowPolicy with
    | .fault => .error (.arithmeticOverflow s.pc op a b)
    | .wrap => .ok (wrap s.cfg.width r)

end Sys2Proof.Machine
end

