-- ==== Sys2Proof/Machine/Channel.lean ====
section
/-! DEFINITION. The rendezvous channel pair (42_io_channels R75 to R82): who holds the complementary halves, what the
inbound peer offers, whether the outbound peer accepts, and what a transfer does to the peer. A channel stores nothing
(R76): `inOffer` is the peer's own port signal, and it goes in the joint step of the transfer (R75). -/

namespace Sys2Proof.Machine

/-- What the arbiter's feeder offers (46_pipeline R92): `P[k]`, then the carry, then nothing more. -/
def State.feederOffer (s : State) : Option Int :=
  if s.fed = 0 then s.phases[s.k]? else if s.fed = 1 then some s.carry else none

/-- `in_valid` and `in_data`: what the inbound peer offers (42_io_channels R80). -/
def State.peerOffer (s : State) : Option Int := if s.busy then s.feederOffer else s.inOffer

/-- The inbound peer's half of a transfer: its send completes (42_io_channels R75), and the feeder counts it
(46_pipeline R92). -/
def State.takeOffer (s : State) : State :=
  if s.busy then { s with fed := s.fed + 1 } else { s with inOffer := none }

/-- `out_ready`: the drainer is always ready (46_pipeline R93); a host when it says so (42_io_channels R80). -/
def State.peerReady (s : State) : Bool := if s.busy then true else s.outReady

/-- The outbound peer's half of a transfer of `x`: the drainer appends it to `outs` (46_pipeline R93). -/
def State.deliver (s : State) (x : Int) : State := if s.busy then { s with outs := s.outs ++ [x] } else s

end Sys2Proof.Machine
end

