-- ==== Sys2Proof/Machine/Arbiter.lean ====
section
/-! DEFINITION. The series pipeline arbiter (46_pipeline R89 to R98): building a stage, ending a stage, starting a run. The
feeder and the drainer are in Channel.lean. What is one turn here is log entry 18. -/

namespace Sys2Proof.Machine

/-- Enter an arbiter fault (60_exceptions R105). -/
def State.arbiterRaise (s : State) (g : ArbiterFault) : State := { s with astatus := .afaulted g }

/-- The top of the loop of 46_pipeline R89: the result when `k = N` (R98), else stage `k` from a fresh machine with its own
copy of `IMG` (R91), which its reset reads from the `img` port (R100). -/
def State.nextStage (s : State) : State :=
  if s.k < s.nStages then
    { s.resetCore s.img with astatus := .stage, fed := 0, outs := [] }
  else { s with astatus := .done s.carry }

/-- The end of stage `k` whose machine has halted (46_pipeline R89, R93): unconsumed input first (R96), then the output
count (R95), then the carry and the next stage. -/
def State.stageHalted (s : State) : State :=
  if s.fed < 2 then s.arbiterRaise (.stageUnconsumedInput s.k s.fed)
  else
    match s.outs with
    | [r] => ({ s with carry := r, k := s.k + 1 } : State).nextStage
    | outs => s.arbiterRaise (.stageOutputCount s.k outs.length)

/-- The end of stage `k` whose machine has faulted with `f` (46_pipeline R97). -/
def State.stageFaulted (s : State) (f : Fault) : State := s.arbiterRaise (.stageFault s.k f)

/-- An accepted `start` (70_reset_and_hazards R115): the arbiter's reset values (10_state R26), the arity check (46_pipeline
R90), then stage 0, or the result at once when there is no stage (R98). -/
def State.startRun (s : State) (img : List Int) (stages : Nat) (phases : List Int) : State :=
  let r : State :=
    { s with
      astatus := .idle, k := 0, carry := 0, fed := 0, outs := [], img := img, nStages := stages, phases := phases }
  if phases.length = stages then r.nextStage
  else r.arbiterRaise (.pipelineArity stages phases.length)

end Sys2Proof.Machine
end

