-- ==== Sys2Proof/Machine/Arith.lean ====
section
/-! DEFINITION. ADD and MUL (41_arithmetic). Every check stands in the order of 40_decode_execute R63; a check that fails
takes its fault and nothing else happens (R62). -/

namespace Sys2Proof.Machine

/-- ADD (41_arithmetic R70). -/
def execAdd (m1 m2 : Mode) (a b c : Int) (s : State) : Host.Outcome State Fault Refusal :=
  s.complete do
    let x ← s.val m1 a
    let y ← s.val m2 b
    let d ← s.dst c
    let r ← s.integerLaw .add x y (x + y)
    return (s.memWrite d r).advance 4

/-- MUL (41_arithmetic R71). -/
def execMul (m1 m2 : Mode) (a b c : Int) (s : State) : Host.Outcome State Fault Refusal :=
  s.complete do
    let x ← s.val m1 a
    let y ← s.val m2 b
    let d ← s.dst c
    let r ← s.integerLaw .mul x y (x * y)
    return (s.memWrite d r).advance 4

end Sys2Proof.Machine
end

