-- ==== Sys2Proof/Machine/Compare.lean ====
section
/-! DEFINITION. LT and EQ (44_compare). The comparison is of signed cells; the result, 1 or 0, goes to memory. -/

namespace Sys2Proof.Machine

/-- LT (44_compare R86). -/
def execLt (m1 m2 : Mode) (a b c : Int) (s : State) : Host.Outcome State Fault Refusal :=
  s.complete do
    let x ← s.val m1 a
    let y ← s.val m2 b
    let d ← s.dst c
    return (s.memWrite d (b2c (decide (x < y)))).advance 4

/-- EQ (44_compare R87). -/
def execEq (m1 m2 : Mode) (a b c : Int) (s : State) : Host.Outcome State Fault Refusal :=
  s.complete do
    let x ← s.val m1 a
    let y ← s.val m2 b
    let d ← s.dst c
    return (s.memWrite d (b2c (decide (x = y)))).advance 4

end Sys2Proof.Machine
end

