-- ==== Sys2Proof/Machine/Halt.lean ====
section
/-! DEFINITION. HLT (45_halt). -/

namespace Sys2Proof.Machine

/-- HLT (45_halt R88): Halted, the event Halt, `pc` past the opcode cell. The channels stay as they are. -/
def execHlt (s : State) : Host.Outcome State Fault Refusal :=
  .next ((({ s with status := .halted } : State).emit .halt).advance 1)

end Sys2Proof.Machine
end

