-- ==== Sys2Proof/Machine/Io.lean ====
section
/-! DEFINITION. IN and OUT (42_io_channels R73, R74). Where the peer is connected and does not act, the machine has no step
(R78): its turn leaves the state as it is, to be tried again (log entry 9). -/

namespace Sys2Proof.Machine

/-- IN (42_io_channels R73): the destination check, then the connection, then the rendezvous. -/
def execIn (a : Int) (s : State) : Host.Outcome State Fault Refusal :=
  s.complete do
    let d ← s.dst a
    if s.inConn then
      match s.peerOffer with
      | some x => return ((s.takeOffer.memWrite d x).emit (.input x)).advance 2
      | none => return s
    else throw (.channelDisconnected s.pc .inbound)

/-- OUT (42_io_channels R74): the source, then the connection, then the rendezvous. -/
def execOut (m1 : Mode) (a : Int) (s : State) : Host.Outcome State Fault Refusal :=
  s.complete do
    let x ← s.val m1 a
    if s.outConn then
      if s.peerReady then return ((s.deliver x).emit (.output x)).advance 2
      else return s
    else throw (.channelDisconnected s.pc .outbound)

end Sys2Proof.Machine
end

