-- ==== Sys2Proof/Machine/Jump.lean ====
section
/-! DEFINITION. JT and JF (43_conditional_jump R83 to R85). -/

namespace Sys2Proof.Machine

/-- The common semantics `CondJump(polarity)` (43_conditional_jump R85): the target is resolved by its own mode digit and
only when the jump is taken, and the new `pc` is not checked here. -/
def State.condJump (s : State) (polarity : Bool) (m1 m2 : Mode) (a b : Int) : Except Fault State := do
  let p ← s.val m1 a
  if decide (p ≠ 0) = polarity then
    let t ← s.val m2 b
    return { s with pc := t }
  else return s.advance 3

/-- JT (43_conditional_jump R83): the jump is taken when the predicate is not 0. -/
def execJt (m1 m2 : Mode) (a b : Int) (s : State) : Host.Outcome State Fault Refusal :=
  s.complete (s.condJump true m1 m2 a b)

/-- JF (43_conditional_jump R84): the jump is taken when the predicate is 0. -/
def execJf (m1 m2 : Mode) (a b : Int) (s : State) : Host.Outcome State Fault Refusal :=
  s.complete (s.condJump false m1 m2 a b)

end Sys2Proof.Machine
end

