-- ==== Sys2Proof/Machine/Dispatch.lean ====
section
/-! DEFINITION. The dispatch: one arm per constructor of Instr, each one call of its meaning. -/

namespace Sys2Proof.Machine

def exec (i : Instr) (s : State) : Host.Outcome State Fault Refusal :=
  match i with
  | .add m1 m2 a b c => Sys2Proof.Machine.execAdd m1 m2 a b c s
  | .mul m1 m2 a b c => Sys2Proof.Machine.execMul m1 m2 a b c s
  | .inp a => Sys2Proof.Machine.execIn a s
  | .out m1 a => Sys2Proof.Machine.execOut m1 a s
  | .jt m1 m2 a b => Sys2Proof.Machine.execJt m1 m2 a b s
  | .jf m1 m2 a b => Sys2Proof.Machine.execJf m1 m2 a b s
  | .lt m1 m2 a b c => Sys2Proof.Machine.execLt m1 m2 a b c s
  | .eq m1 m2 a b c => Sys2Proof.Machine.execEq m1 m2 a b c s
  | .hlt => Sys2Proof.Machine.execHlt s

end Sys2Proof.Machine
end

