-- ==== Sys2Proof/Machine/Engine.lean ====
section
/-! DEFINITION. The fetch-decode-execute engine (40_decode_execute R57 to R65), and one turn of the core with the arbiter
that drives it. -/

namespace Sys2Proof.Machine

/-- A decode failure `v` at `pc` (40_decode_execute R59), by policy. -/
def State.decodeFailure (s : State) (v : Int) : State :=
  match s.cfg.decodePolicy with
  | .fault => s.raise (.invalidOpcode s.pc v)
  | .skip => (s.emit (.decodeError s.pc v)).advance 1

/-- One step of a Running machine (40_decode_execute R57). -/
def engineStep (s : State) : Host.Outcome State Fault Refusal :=
  match s.fetch with
  | .instr i => exec i s
  | .invalid v => .next (s.decodeFailure v)
  | .outside f => .next (s.raise f)

/-- One turn of the core: a Running machine steps (R57); a Halted one does nothing (R64) and a Faulted one has no step (R65),
unless it is the arbiter's stage, which then ends (46_pipeline R89). -/
def coreTurn (s : State) : Host.Outcome State Fault Refusal :=
  match s.status with
  | .running => engineStep s
  | .halted => .next (if s.busy then s.stageHalted else s)
  | .faulted f => if s.busy then .next (s.stageFaulted f) else .fault f

end Sys2Proof.Machine
end

