-- ==== Sys2Proof/Machine/HostPort.lean ====
section
/-! DEFINITION. What the host does in a turn of its own (42_io_channels R77, R80 to R82; 46_pipeline R100;
70_reset_and_hazards R114, R115). What it may not do (an offer over a pending offer, a signal on a half it does not hold, a
`start` while busy) is no action, and leaves the state as it is (log entry 10). -/

namespace Sys2Proof.Machine

/-- Every value of the action fits a `W`-bit port (00_scope R5, 70_reset_and_hazards R116). -/
def HostAct.fits (W : Nat) : HostAct → Bool
  | .offer v => decide (inRange W v)
  | .setReady _ => true
  | .dropInbound => true
  | .dropOutbound => true
  | .reset img => decide (∀ v ∈ img, inRange W v)
  | .setImage img => decide (∀ v ∈ img, inRange W v)
  | .start img _ phases => decide (∀ v ∈ img, inRange W v) && decide (∀ v ∈ phases, inRange W v)
  | .powerUp => true

/-- The host offers `v` (R80); an offer stands unchanged until its transfer or until the peer closes (R81). -/
def State.hostOffer (s : State) (v : Int) : State :=
  if !s.busy && s.inConn && s.inOffer.isNone then { s with inOffer := some v } else s

/-- The host raises or lowers `out_ready` (R80), freely (R81), while it holds the receive half. -/
def State.hostReady (s : State) (ready : Bool) : State :=
  if !s.busy && s.outConn then { s with outReady := ready } else s

/-- The host drops the inbound send half for good (R77); a pending offer goes with it (R81). -/
def State.hostDropInbound (s : State) : State :=
  if s.busy then s else { s with inConn := false, inOffer := none }

/-- The host drops the outbound receive half for good (R77), and with it its readiness. -/
def State.hostDropOutbound (s : State) : State :=
  if s.busy then s else { s with outConn := false, outReady := false }

/-- The host resets the standalone machine (R114); the arbiter alone resets its stage's machine (46_pipeline R91). -/
def State.hostReset (s : State) (img : List Int) : State := if s.busy then s else s.resetCore img

/-- The host drives the arbiter's `img` port (46_pipeline R100), busy or not: a stage in progress keeps its memory, and the
next stage's reset reads the new image. -/
def State.hostImage (s : State) (img : List Int) : State := { s with img := img }

/-- A `start` pulse (46_pipeline R100): ignored while busy. -/
def State.hostStart (s : State) (img : List Int) (stages : Nat) (phases : List Int) : State :=
  if s.busy then s else s.startRun img stages phases

/-- Power-up (70_reset_and_hazards R115): everything at its reset value but the parameters and the turns still to come
(log entry 19). -/
def State.powerUp (s : State) : State := { State.reset with cfg := s.cfg, turns := s.turns }

/-- One turn of the host. -/
def State.hostTurn (s : State) (act : HostAct) : State :=
  if act.fits s.cfg.width then
    match act with
    | .offer v => s.hostOffer v
    | .setReady ready => s.hostReady ready
    | .dropInbound => s.hostDropInbound
    | .dropOutbound => s.hostDropOutbound
    | .reset img => s.hostReset img
    | .setImage img => s.hostImage img
    | .start img stages phases => s.hostStart img stages phases
    | .powerUp => s.powerUp
  else s

end Sys2Proof.Machine
end

