-- ==== Sys2Proof/Machine/Step.lean ====
section
/-! DEFINITION. One step of the block set: the turn of the agent that moves next (40_decode_execute R68; log entry 7). -/

namespace Sys2Proof.Machine

/-- One step: the host's turn, or the core's. With no turn listed the core moves. -/
def step (s : State) : Host.Outcome State Fault Refusal :=
  match s.turns with
  | [] => coreTurn s
  | .core :: rest => coreTurn { s with turns := rest }
  | .host act :: rest => .next (({ s with turns := rest } : State).hostTurn act)

/-- `s` with the instruction of a table word at the program counter of a Running core whose turn is next (log entry 12). The
memory is made long enough to hold it: this stands for the loader (70_reset_and_hazards R116). -/
def State.withFetchWord (s : State) (nbits w : Nat) : State :=
  { s with
    mem := (s.mem.growTo (s.pc.toNat + maxLength)).writeAll s.pc.toNat (tableCells s.cfg.width nbits w)
    pc := (s.pc.toNat : Int)
    status := .running
    turns :=
      match s.turns with
      | [] => []
      | .core :: rest => .core :: rest
      | .host act :: rest => .core :: .host act :: rest }

end Sys2Proof.Machine
end

