-- ==== Sys2Proof/Machine/Ports.lean ====
section
/-! DEFINITION. The output ports, each a function of the state or of the decoder's input; no instruction reads them
(10_state R19). A port field that no rule gives a meaning in some case is absent there (log entry 14). -/

namespace Sys2Proof.Machine

/-! ## The decoder's port (30_encoding R51) -/

/-- The decoder's output port. A mode bit is 1 for Immediate. -/
structure DecoderPort where
  valid : Bool
  kind : Option (BitVec 3)
  pol : Option Bool
  m1 : Option Bool
  m2 : Option Bool
  len : BitVec 3
  deriving DecidableEq, Repr

/-- `dec_kind` (30_encoding R51). -/
def decKind : Operation → BitVec 3
  | .add _ _ => 0
  | .mul _ _ => 1
  | .read => 2
  | .write _ => 3
  | .condJump _ _ _ => 4
  | .lessThan _ _ => 5
  | .equal _ _ => 6
  | .halt => 7

/-- `dec_pol`, meaningful for CondJump (30_encoding R51). -/
def decPolarity : Operation → Option Bool
  | .condJump polarity _ _ => some polarity
  | .add _ _ => none
  | .mul _ _ => none
  | .read => none
  | .write _ => none
  | .lessThan _ _ => none
  | .equal _ _ => none
  | .halt => none

/-- A mode as its bit (30_encoding R51). -/
def modeBit (m : Mode) : Bool := decide (m = .immediate)

/-- The decoder's port for the cell `v` (30_encoding R51). -/
def decoderPort (v : Int) : DecoderPort :=
  match decodeOp v with
  | .ok d =>
    { valid := true
      kind := some (decKind d)
      pol := decPolarity d
      m1 := d.mode1.map modeBit
      m2 := d.mode2.map modeBit
      len := BitVec.ofNat 3 (1 + d.arity) }
  | .error _ => { valid := false, kind := none, pol := none, m1 := none, m2 := none, len := 1 }

/-! ## The channel ports (42_io_channels R80; log entry 20) and the derived blocked status (10_state R21) -/

/-- The destination address of an IN. -/
def receivesAt : Instr → Option Int
  | .inp a => some a
  | .add _ _ _ _ _ => none
  | .mul _ _ _ _ _ => none
  | .out _ _ => none
  | .jt _ _ _ _ => none
  | .jf _ _ _ _ => none
  | .lt _ _ _ _ _ => none
  | .eq _ _ _ _ _ => none
  | .hlt => none

/-- The source operand of an OUT. -/
def sendsFrom : Instr → Option (Mode × Int)
  | .out m1 a => some (m1, a)
  | .inp _ => none
  | .add _ _ _ _ _ => none
  | .mul _ _ _ _ _ => none
  | .jt _ _ _ _ => none
  | .jf _ _ _ _ => none
  | .lt _ _ _ _ _ => none
  | .eq _ _ _ _ _ => none
  | .hlt => none

/-- The instruction a Running machine is at, when fetch, decode and operand fetch succeed. -/
def State.current (s : State) : Option Instr :=
  match s.status, s.fetch with
  | .running, .instr i => some i
  | .running, .invalid _ => none
  | .running, .outside _ => none
  | .halted, _ => none
  | .faulted _, _ => none

/-- `in_ready`: at an IN whose destination check passed, and `in_conn` is true (42_io_channels R80). -/
def State.inReady (s : State) : Bool :=
  match s.current.bind receivesAt with
  | some a => decide (s.mem.Valid a) && s.inConn
  | none => false

/-- `out_data` while `out_valid`: the value of an OUT whose source resolved, and `out_conn` is true (42_io_channels R80). -/
def State.outData (s : State) : Option Int :=
  match s.current.bind sendsFrom with
  | some (m, a) => if s.outConn then s.source m a else none
  | none => none

/-- `out_valid` (42_io_channels R80). -/
def State.outValid (s : State) : Bool := s.outData.isSome

/-- `in_closed` (42_io_channels R80). -/
def State.inClosed (s : State) : Bool := !s.inConn

/-- `out_closed` (42_io_channels R80). -/
def State.outClosed (s : State) : Bool := !s.outConn

/-- Blocked on input (10_state R21): ready, and no peer is sending. -/
def State.blockedOnInput (s : State) : Bool := s.inReady && s.peerOffer.isNone

/-- Blocked on output (10_state R21): a value is offered, and no peer is receiving. -/
def State.blockedOnOutput (s : State) : Bool := s.outValid && !s.peerReady

/-! ## The status ports (10_state R19, 60_exceptions R102) -/

/-- `halted`. -/
def State.haltedPort (s : State) : Bool := decide (s.status = .halted)

/-- `fault_info`: the record of the fault, while `faulted`. -/
def State.faultInfo (s : State) : Option Fault :=
  match s.status with
  | .running => none
  | .halted => none
  | .faulted f => some f

/-- `faulted`. -/
def State.faultedPort (s : State) : Bool := s.faultInfo.isSome

/-- The fault codes 1 to 4 of 60_exceptions R102. -/
def faultCodeOf : Fault → Nat
  | .invalidOpcode _ _ => 1
  | .addressOutOfRange _ _ _ => 2
  | .channelDisconnected _ _ => 3
  | .arithmeticOverflow _ _ _ _ => 4

/-- `fault_code`, while `faulted`. -/
def State.faultCode (s : State) : Option Nat := s.faultInfo.map faultCodeOf

/-! ## The arbiter's ports (46_pipeline R100, 60_exceptions R102); `busy` is `State.busy` and `stage` is the field `k` -/

/-- `result`, valid while `done`. -/
def State.result (s : State) : Option Int :=
  match s.astatus with
  | .idle => none
  | .stage => none
  | .done r => some r
  | .afaulted _ => none

/-- `done`. -/
def State.donePort (s : State) : Bool := s.result.isSome

/-- `afault_info`: the record of the arbiter fault, while `afault`. -/
def State.afaultInfo (s : State) : Option ArbiterFault :=
  match s.astatus with
  | .idle => none
  | .stage => none
  | .done _ => none
  | .afaulted g => some g

/-- `afault`. -/
def State.afaultPort (s : State) : Bool := s.afaultInfo.isSome

/-- The arbiter fault codes 16 to 19 of 60_exceptions R102. -/
def arbiterFaultCodeOf : ArbiterFault → Nat
  | .pipelineArity _ _ => 16
  | .stageFault _ _ => 17
  | .stageUnconsumedInput _ _ => 18
  | .stageOutputCount _ _ => 19

/-- `afault_code`, while `afault`. -/
def State.afaultCode (s : State) : Option Nat := s.afaultInfo.map arbiterFaultCodeOf

end Sys2Proof.Machine
end

