-- ==== Sys2Proof/Safety.lean ====
section
/-! DEFINITION. The terms in which claims are stated: what a memory update is, whose turn it is, runs, a run that ended well,
the invariant, and what the pipeline computes. -/

namespace Sys2Proof.Machine

/-! ## Memory and turns -/

/-- `m'` is `m` with the value `v` at `d` and every other cell as before (20_memory R30). -/
abbrev Memory.UpdatedAt (m m' : Memory) (d : Int) (v : Int) : Prop :=
  m'.len = m.len ∧ m'.read d = some v ∧ ∀ a : Int, a ≠ d → m'.read a = m.read a

/-- `v` is what the integer law makes of the exact result `r` (41_arithmetic R72), where it makes a value of it. -/
abbrev State.LawResult (s : State) (r v : Int) : Prop :=
  (inRange s.cfg.width r ∧ v = r) ∨ (¬ inRange s.cfg.width r ∧ s.cfg.overflowPolicy = .wrap ∧ v = wrap s.cfg.width r)

/-- The instruction completes in `s` by storing `v` at its destination `d` (41_arithmetic R70, R71; 42_io_channels R73;
44_compare R86, R87). -/
def State.Stores (s : State) (d v : Int) : Instr → Prop
  | .add m1 m2 a b c =>
    c = d ∧ s.mem.Valid d ∧ ∃ x y, s.source m1 a = some x ∧ s.source m2 b = some y ∧ s.LawResult (x + y) v
  | .mul m1 m2 a b c =>
    c = d ∧ s.mem.Valid d ∧ ∃ x y, s.source m1 a = some x ∧ s.source m2 b = some y ∧ s.LawResult (x * y) v
  | .inp a => a = d ∧ s.mem.Valid d ∧ s.inConn = true ∧ s.peerOffer = some v
  | .out _ _ => False
  | .jt _ _ _ _ => False
  | .jf _ _ _ _ => False
  | .lt m1 m2 a b c =>
    c = d ∧ s.mem.Valid d ∧ ∃ x y, s.source m1 a = some x ∧ s.source m2 b = some y ∧ v = if x < y then 1 else 0
  | .eq m1 m2 a b c =>
    c = d ∧ s.mem.Valid d ∧ ∃ x y, s.source m1 a = some x ∧ s.source m2 b = some y ∧ v = if x = y then 1 else 0
  | .hlt => False

/-- The core has the next turn. -/
def State.coreIsNext (s : State) : Bool :=
  match s.turns with
  | [] => true
  | .core :: _ => true
  | .host _ :: _ => false

/-- The state in which the next turn is taken: its entry is gone from the list. -/
def State.turnTaken (s : State) : State := { s with turns := s.turns.tail }

/-- The host's action that makes the core anew: a reset of the standalone machine, a start of the arbiter, a power-up. -/
def HostAct.rebuilds : HostAct → Bool
  | .offer _ => false
  | .setReady _ => false
  | .dropInbound => false
  | .dropOutbound => false
  | .reset _ => true
  | .setImage _ => false
  | .start _ _ _ => true
  | .powerUp => true

/-- The host's action keeps the arbiter's run and its inputs: it is no start of another run, no power-up, and no change of the
`img` port (46_pipeline R100). -/
def HostAct.keepsRun : HostAct → Bool
  | .offer _ => true
  | .setReady _ => true
  | .dropInbound => true
  | .dropOutbound => true
  | .reset _ => true
  | .setImage _ => false
  | .start _ _ _ => false
  | .powerUp => false

/-- The next step may make the core anew: the host rebuilds it, or the arbiter ends a stage (46_pipeline R91). -/
def State.rebuildsNext (s : State) : Bool :=
  match s.turns with
  | .host act :: _ => act.rebuilds
  | .core :: _ => s.busy && decide (s.status ≠ .running)
  | [] => s.busy && decide (s.status ≠ .running)

/-! ## Runs -/

/-- `t` is reached from `s` by steps, each with a next state. -/
inductive Reaches : State → State → Prop where
  | refl (s : State) : Reaches s s
  | step {s t u : State} : Reaches s t → step t = .next u → Reaches s u

/-- A run has ended well exactly when the status is Halted (40_decode_execute R69). -/
abbrev State.EndedWell (s : State) : Prop := s.status = .halted

/-- `run` (40_decode_execute R66): the step again and again while the status is Running. It ends in `t`, Halted or Faulted; a
machine that loops or blocks for ever has no such `t`. -/
inductive RunsTo : State → State → Prop where
  | stop (s : State) : s.status ≠ .running → RunsTo s s
  | step {s t u : State} : s.status = .running → step s = .next t → RunsTo t u → RunsTo s u

/-! ## The invariant -/

/-- Every stored value is a cell (00_scope R5): in memory, at the ports, in the arbiter and in its run's inputs. -/
abbrev State.CellsInRange (s : State) : Prop :=
  (∀ p ∈ s.mem.cells, inRange s.cfg.width p.2) ∧
  (∀ v ∈ s.inOffer.toList, inRange s.cfg.width v) ∧
  inRange s.cfg.width s.carry ∧
  (∀ v ∈ s.outs, inRange s.cfg.width v) ∧
  (∀ v ∈ s.img, inRange s.cfg.width v) ∧
  (∀ v ∈ s.phases, inRange s.cfg.width v)

/-- The arbiter's state is consistent (10_state R22, 46_pipeline R89 to R98): `k <= N`, `fed <= 2`; a stage in progress has an
index below `N`, a phase for every stage and both channels connected; a result is the carry after all `N` stages. -/
abbrev State.ArbiterConsistent (s : State) : Prop :=
  s.k ≤ s.nStages ∧ s.fed ≤ 2 ∧
  (s.busy = true → s.k < s.nStages ∧ s.phases.length = s.nStages ∧ s.inConn = true ∧ s.outConn = true) ∧
  (∀ r ∈ s.result.toList, s.k = s.nStages ∧ r = s.carry)

/-- The invariant that every step keeps: a cell has at least one bit, the memory keeps its canonical form, every stored value
is a cell, a host offers only on a connected channel, and the arbiter is consistent. -/
abbrev State.Inv (s : State) : Prop :=
  1 ≤ s.cfg.width ∧ s.mem.wf = true ∧ s.CellsInRange ∧ (s.inOffer.isSome = true → s.inConn = true) ∧ s.ArbiterConsistent

/-! ## What a stage depends on (46_pipeline R101) -/

/-- Both states run a stage, with the same machine, the same inputs still to come and the same outputs so far. The stage's
index, the other phases, the `img` port, the host's signals and the turns still to come may differ. -/
abbrev State.SameStage (s t : State) : Prop :=
  s.busy = true ∧ t.busy = true ∧ s.cfg = t.cfg ∧ s.mem = t.mem ∧ s.pc = t.pc ∧ s.status = t.status ∧
  s.inConn = t.inConn ∧ s.outConn = t.outConn ∧ s.trace = t.trace ∧ s.carry = t.carry ∧ s.fed = t.fed ∧ s.outs = t.outs ∧
  s.phases[s.k]? = t.phases[t.k]?

/-! ## What the pipeline computes (46_pipeline R89) -/

/-- The block set at power-up with the parameters `cfg`. -/
def State.powered (cfg : Config) : State := { State.reset with cfg := cfg }

/-- A single stage at its start, with phase `p` and incoming carry `c`: a fresh machine with image `img` (46_pipeline R91). -/
def stageStart (cfg : Config) (img : List Int) (p c : Int) : State :=
  { (State.powered cfg).startRun img 1 [p] with carry := c }

/-- A stage with phase `p` and incoming carry `c` halts having taken both inputs and emitted the one value `r`
(46_pipeline R93). -/
def StageEmits (cfg : Config) (img : List Int) (p c r : Int) : Prop :=
  ∃ t, Reaches (stageStart cfg img p c) t ∧ t.busy = true ∧ t.status = .halted ∧ t.fed = 2 ∧ t.outs = [r]

/-- The carries of the loop of 46_pipeline R89: from the carry `c`, the stages with the phases `ps` give `r`. -/
def CarryChain (cfg : Config) (img : List Int) : List Int → Int → Int → Prop
  | [], c, r => r = c
  | p :: ps, c, r => ∃ c', StageEmits cfg img p c c' ∧ CarryChain cfg img ps c' r

end Sys2Proof.Machine
end

