-- ==== Sys2Proof/Certificates/Slice0/Obligations.lean ====
section
/-! DEFINITION. The statements for the provers, in the order of the spec's files. -/

open Sys2Proof Sys2Proof.Machine

/-! ## Encoding and the decoder (30_encoding) -/

/-- Decoding the cells of any instruction, whatever follows them, gives the instruction back (R41, R50, R56). -/
def Obligations.DecodeInvertsEncode : Prop :=
  ∀ (i : Instr) (rest : List Int), decodeCells (encode i ++ rest) = .ok (i, rest)

/-- The decoder as R50 writes it: what it accepts, and what it then answers. -/
def Obligations.DecoderAcceptsExactly : Prop :=
  ∀ (v : Int) (d : Operation),
    decodeOp v = .ok d ↔
      0 ≤ v ∧ selector v.toNat = d.selector ∧
      (∀ i, 1 ≤ i → i ≤ d.arity → digit v.toNat (i + 1) ≤ 1) ∧
      (∀ m, d.mode1 = some m → digit v.toNat 2 = m.digit) ∧
      (∀ m, d.mode2 = some m → digit v.toNat 3 = m.digit)

/-- The opcode map of R45: the nine assigned selectors, each as a bare opcode cell, and every other selector a failure. -/
def Obligations.OpcodeMap : Prop :=
  decodeOp 1 = .ok (.add .position .position) ∧ decodeOp 2 = .ok (.mul .position .position) ∧
  decodeOp 3 = .ok .read ∧ decodeOp 4 = .ok (.write .position) ∧
  decodeOp 5 = .ok (.condJump true .position .position) ∧ decodeOp 6 = .ok (.condJump false .position .position) ∧
  decodeOp 7 = .ok (.lessThan .position .position) ∧ decodeOp 8 = .ok (.equal .position .position) ∧
  decodeOp 99 = .ok .halt ∧
  ∀ v : Int, 0 ≤ v → selector v.toNat ∉ [1, 2, 3, 4, 5, 6, 7, 8, 99] →
    decodeOp v = .error (.unknownOpcode (selector v.toNat))

/-- A negative opcode cell is a decode failure (R44). -/
def Obligations.NegativeCellIsFailure : Prop := ∀ v : Int, v < 0 → decodeOp v = .error (.negative v)

/-- Digits beyond the operation's operands do not change the decoded instruction (R47): two cells with the same low
`2 + n` digits decode alike. -/
def Obligations.HighDigitsIgnored : Prop :=
  ∀ (v w : Nat) (d : Operation), decodeOp v = .ok d → w % 10 ^ (2 + d.arity) = v % 10 ^ (2 + d.arity) → decodeOp w = .ok d

/-- A mode digit of a source operand from 2 to 9 is a decode failure (R48). -/
def Obligations.SourceDigitTwoToNineFails : Prop :=
  ∀ (v : Nat) (d : Operation), selector v = d.selector →
    (d.mode1.isSome = true → 2 ≤ digit v 2 → ∃ e, decodeOp v = .error e) ∧
    (d.mode2.isSome = true → 2 ≤ digit v 3 → ∃ e, decodeOp v = .error e)

/-- The mode digit of a destination operand: 0 and 1 give the same result, 2 to 9 is a decode failure (R49). -/
def Obligations.DestinationDigitIgnored : Prop :=
  ∀ (v n : Nat) (d : Operation), selector v = d.selector → d.destinationOperand = some n →
    (digit v (n + 1) = 0 → decodeOp ((v + 10 ^ (n + 1) : Nat) : Int) = decodeOp v) ∧
    (2 ≤ digit v (n + 1) → ∃ e, decodeOp v = .error e)

/-- The length rule (R55), and the lengths of the nine instructions (R46). -/
def Obligations.LengthRule : Prop :=
  (∀ v d, decodeOp v = .ok d → lengthAt v = 1 + d.arity) ∧
  (∀ v e, decodeOp v = .error e → lengthAt v = 1) ∧
  (∀ m1 m2 a b c, (Instr.add m1 m2 a b c).length = 4 ∧ (Instr.mul m1 m2 a b c).length = 4 ∧
    (Instr.lt m1 m2 a b c).length = 4 ∧ (Instr.eq m1 m2 a b c).length = 4) ∧
  (∀ m1 m2 a b, (Instr.jt m1 m2 a b).length = 3 ∧ (Instr.jf m1 m2 a b).length = 3) ∧
  (∀ m1 a, (Instr.inp a).length = 2 ∧ (Instr.out m1 a).length = 2) ∧
  Instr.hlt.length = 1

/-- A few cells of each format decode to the instruction they stand for (R42, R43, R47, R49, R56). -/
def Obligations.SampleCellsDecode : Prop :=
  decodeCells [1002, 4, 3, 4] = .ok (.mul .position .immediate 4 3 4, []) ∧
  decodeCells [101, -1, 20, 20] = .ok (.add .immediate .position (-1) 20 20, []) ∧
  decodeCells [1105, 1, 2] = .ok (.jt .immediate .immediate 1 2, []) ∧
  decodeCells [1006, 20, 31] = .ok (.jf .position .immediate 20 31, []) ∧
  decodeCells [107, 8, 21, 20] = .ok (.lt .immediate .position 8 21 20, []) ∧
  decodeCells [1108, -1, 8, 3] = .ok (.eq .immediate .immediate (-1) 8 3, []) ∧
  decodeCells [103, 3] = .ok (.inp 3, []) ∧
  decodeCells [104, 999] = .ok (.out .immediate 999, []) ∧
  decodeCells [11199] = .ok (.hlt, [])

/-- The decoder's output port (R51): valid exactly when the cell decodes, the length of R55, and the fields of a decoded
operation. -/
def Obligations.DecoderPortFields : Prop :=
  (∀ v, ((decoderPort v).valid = true ↔ ∃ d, decodeOp v = .ok d) ∧ (decoderPort v).len.toNat = lengthAt v) ∧
  (∀ v d, decodeOp v = .ok d →
    (decoderPort v).m1 = d.mode1.map (fun m => decide (m = .immediate)) ∧
    (decoderPort v).m2 = d.mode2.map (fun m => decide (m = .immediate))) ∧
  (∀ v m1 m2, (decodeOp v = .ok (.add m1 m2) → (decoderPort v).kind = some 0) ∧
    (decodeOp v = .ok (.mul m1 m2) → (decoderPort v).kind = some 1) ∧
    (decodeOp v = .ok .read → (decoderPort v).kind = some 2) ∧
    (decodeOp v = .ok (.write m1) → (decoderPort v).kind = some 3) ∧
    (∀ p, decodeOp v = .ok (.condJump p m1 m2) → (decoderPort v).kind = some 4 ∧ (decoderPort v).pol = some p) ∧
    (decodeOp v = .ok (.lessThan m1 m2) → (decoderPort v).kind = some 5) ∧
    (decodeOp v = .ok (.equal m1 m2) → (decoderPort v).kind = some 6) ∧
    (decodeOp v = .ok .halt → (decoderPort v).kind = some 7))

/-- `wrap(x)` is the unique cell congruent to `x` modulo `2^W` (00_scope R10). -/
def Obligations.WrapIsTheCongruentCell : Prop :=
  ∀ (W : Nat) (x y : Int), 1 ≤ W →
    ((inRange W y ∧ ((2 ^ W : Nat) : Int) ∣ x - y) ↔ y = wrap W x)

/-! ## The instructions (41 to 45): result, faults and frame -/

/-- ADD (R70): its encodings; its faults in the order of R63; its result, by the integer law of R72; and that nothing but the
destination cell and the program counter changes. -/
def Obligations.AddFollowsItsRule : Prop :=
  ∀ (s : State) (m1 m2 : Mode) (a b c : Int),
    encode (.add m1 m2 a b c) = [1 + 100 * (m1.digit : Int) + 1000 * (m2.digit : Int), a, b, c] ∧
    (∀ e k : Nat, e ≤ 1 →
      decodeOp ((1 + 100 * m1.digit + 1000 * m2.digit + 10000 * e + 100000 * k : Nat) : Int) = .ok (.add m1 m2)) ∧
    (s.source m1 a = none → exec (.add m1 m2 a b c) s = .next (s.raise (.addressOutOfRange s.pc a .load))) ∧
    ∀ x, s.source m1 a = some x →
      (s.source m2 b = none → exec (.add m1 m2 a b c) s = .next (s.raise (.addressOutOfRange s.pc b .load))) ∧
      ∀ y, s.source m2 b = some y →
        (¬ s.mem.Valid c → exec (.add m1 m2 a b c) s = .next (s.raise (.addressOutOfRange s.pc c .store))) ∧
        (s.mem.Valid c → ¬ inRange s.cfg.width (x + y) → s.cfg.overflowPolicy = .fault →
          exec (.add m1 m2 a b c) s = .next (s.raise (.arithmeticOverflow s.pc .add x y))) ∧
        (s.mem.wf = true → s.mem.Valid c → ¬ inRange s.cfg.width (x + y) → s.cfg.overflowPolicy = .wrap →
          ∃ t, exec (.add m1 m2 a b c) s = .next t ∧ s.mem.UpdatedAt t.mem c (wrap s.cfg.width (x + y)) ∧
            t = { s with mem := t.mem, pc := s.pc + 4 }) ∧
        (s.mem.wf = true → s.mem.Valid c → inRange s.cfg.width (x + y) →
          ∃ t, exec (.add m1 m2 a b c) s = .next t ∧ s.mem.UpdatedAt t.mem c (x + y) ∧
            t = { s with mem := t.mem, pc := s.pc + 4 })

/-- MUL (R71), as ADD. -/
def Obligations.MulFollowsItsRule : Prop :=
  ∀ (s : State) (m1 m2 : Mode) (a b c : Int),
    encode (.mul m1 m2 a b c) = [2 + 100 * (m1.digit : Int) + 1000 * (m2.digit : Int), a, b, c] ∧
    (∀ e k : Nat, e ≤ 1 →
      decodeOp ((2 + 100 * m1.digit + 1000 * m2.digit + 10000 * e + 100000 * k : Nat) : Int) = .ok (.mul m1 m2)) ∧
    (s.source m1 a = none → exec (.mul m1 m2 a b c) s = .next (s.raise (.addressOutOfRange s.pc a .load))) ∧
    ∀ x, s.source m1 a = some x →
      (s.source m2 b = none → exec (.mul m1 m2 a b c) s = .next (s.raise (.addressOutOfRange s.pc b .load))) ∧
      ∀ y, s.source m2 b = some y →
        (¬ s.mem.Valid c → exec (.mul m1 m2 a b c) s = .next (s.raise (.addressOutOfRange s.pc c .store))) ∧
        (s.mem.Valid c → ¬ inRange s.cfg.width (x * y) → s.cfg.overflowPolicy = .fault →
          exec (.mul m1 m2 a b c) s = .next (s.raise (.arithmeticOverflow s.pc .mul x y))) ∧
        (s.mem.wf = true → s.mem.Valid c → ¬ inRange s.cfg.width (x * y) → s.cfg.overflowPolicy = .wrap →
          ∃ t, exec (.mul m1 m2 a b c) s = .next t ∧ s.mem.UpdatedAt t.mem c (wrap s.cfg.width (x * y)) ∧
            t = { s with mem := t.mem, pc := s.pc + 4 }) ∧
        (s.mem.wf = true → s.mem.Valid c → inRange s.cfg.width (x * y) →
          ∃ t, exec (.mul m1 m2 a b c) s = .next t ∧ s.mem.UpdatedAt t.mem c (x * y) ∧
            t = { s with mem := t.mem, pc := s.pc + 4 })

/-- Only ADD and MUL raise ArithmeticOverflow, only under the policy fault, and only when the exact result is no cell; the
record holds the pc, the operation and the two source values (R72). -/
def Obligations.OverflowOnlyFromAddAndMul : Prop :=
  ∀ (i : Instr) (s t : State) (p : Int) (op : ArithOp) (x y : Int),
    s.status = .running → exec i s = .next t → t.status = .faulted (.arithmeticOverflow p op x y) →
      s.cfg.overflowPolicy = .fault ∧ p = s.pc ∧
      ∃ m1 m2 a b c, s.source m1 a = some x ∧ s.source m2 b = some y ∧
        ((i = .add m1 m2 a b c ∧ op = .add ∧ ¬ inRange s.cfg.width (x + y)) ∨
         (i = .mul m1 m2 a b c ∧ op = .mul ∧ ¬ inRange s.cfg.width (x * y)))

/-- LT (R86): encodings, faults, result (the signed comparison, 1 or 0), frame. -/
def Obligations.LtFollowsItsRule : Prop :=
  ∀ (s : State) (m1 m2 : Mode) (a b c : Int),
    encode (.lt m1 m2 a b c) = [7 + 100 * (m1.digit : Int) + 1000 * (m2.digit : Int), a, b, c] ∧
    (∀ e k : Nat, e ≤ 1 →
      decodeOp ((7 + 100 * m1.digit + 1000 * m2.digit + 10000 * e + 100000 * k : Nat) : Int) = .ok (.lessThan m1 m2)) ∧
    (s.source m1 a = none → exec (.lt m1 m2 a b c) s = .next (s.raise (.addressOutOfRange s.pc a .load))) ∧
    ∀ x, s.source m1 a = some x →
      (s.source m2 b = none → exec (.lt m1 m2 a b c) s = .next (s.raise (.addressOutOfRange s.pc b .load))) ∧
      ∀ y, s.source m2 b = some y →
        (¬ s.mem.Valid c → exec (.lt m1 m2 a b c) s = .next (s.raise (.addressOutOfRange s.pc c .store))) ∧
        (s.mem.wf = true → s.mem.Valid c →
          ∃ t, exec (.lt m1 m2 a b c) s = .next t ∧ s.mem.UpdatedAt t.mem c (if x < y then 1 else 0) ∧
            t = { s with mem := t.mem, pc := s.pc + 4 })

/-- EQ (R87): encodings, faults, result (1 or 0), frame. -/
def Obligations.EqFollowsItsRule : Prop :=
  ∀ (s : State) (m1 m2 : Mode) (a b c : Int),
    encode (.eq m1 m2 a b c) = [8 + 100 * (m1.digit : Int) + 1000 * (m2.digit : Int), a, b, c] ∧
    (∀ e k : Nat, e ≤ 1 →
      decodeOp ((8 + 100 * m1.digit + 1000 * m2.digit + 10000 * e + 100000 * k : Nat) : Int) = .ok (.equal m1 m2)) ∧
    (s.source m1 a = none → exec (.eq m1 m2 a b c) s = .next (s.raise (.addressOutOfRange s.pc a .load))) ∧
    ∀ x, s.source m1 a = some x →
      (s.source m2 b = none → exec (.eq m1 m2 a b c) s = .next (s.raise (.addressOutOfRange s.pc b .load))) ∧
      ∀ y, s.source m2 b = some y →
        (¬ s.mem.Valid c → exec (.eq m1 m2 a b c) s = .next (s.raise (.addressOutOfRange s.pc c .store))) ∧
        (s.mem.wf = true → s.mem.Valid c →
          ∃ t, exec (.eq m1 m2 a b c) s = .next t ∧ s.mem.UpdatedAt t.mem c (if x = y then 1 else 0) ∧
            t = { s with mem := t.mem, pc := s.pc + 4 })

/-- IN (R73, R78): its encodings; the destination check before everything; the disconnected channel; the transfer, which takes the
peer's offer (from the host, or from the arbiter's feeder while a stage runs), stores it, goes to the trace and changes
nothing else; and the wait, for which R78 says that there is no step: that its turn is one that changes nothing is the model's
reading (log entry 9). -/
def Obligations.InFollowsItsRule : Prop :=
  ∀ (s : State) (a : Int),
    encode (.inp a) = [3, a] ∧
    (∀ e k : Nat, e ≤ 1 → decodeOp ((3 + 100 * e + 1000 * k : Nat) : Int) = .ok .read) ∧
    (¬ s.mem.Valid a → exec (.inp a) s = .next (s.raise (.addressOutOfRange s.pc a .store))) ∧
    (s.mem.Valid a →
      (s.inConn = false → exec (.inp a) s = .next (s.raise (.channelDisconnected s.pc .inbound))) ∧
      (s.inConn = true →
        (s.peerOffer = none → exec (.inp a) s = .next s) ∧
        (s.mem.wf = true → ∀ x, s.peerOffer = some x →
          ∃ t, exec (.inp a) s = .next t ∧ s.mem.UpdatedAt t.mem a x ∧
            t = { s with
              mem := t.mem, pc := s.pc + 2, trace := s.trace ++ [.input x]
              inOffer := if s.busy then s.inOffer else none, fed := if s.busy then s.fed + 1 else s.fed })))

/-- OUT (R74, R78): its encodings; the source before everything; the disconnected channel; the transfer to a ready peer (the host, or
the arbiter's drainer while a stage runs), which writes no memory; and the wait, for
which R78 says that there is no step: that its turn is one that changes nothing is the model's reading (log entry 9). -/
def Obligations.OutFollowsItsRule : Prop :=
  ∀ (s : State) (m1 : Mode) (a : Int),
    encode (.out m1 a) = [4 + 100 * (m1.digit : Int), a] ∧
    (∀ k : Nat, decodeOp ((4 + 100 * m1.digit + 1000 * k : Nat) : Int) = .ok (.write m1)) ∧
    (s.source m1 a = none → exec (.out m1 a) s = .next (s.raise (.addressOutOfRange s.pc a .load))) ∧
    ∀ x, s.source m1 a = some x →
      (s.outConn = false → exec (.out m1 a) s = .next (s.raise (.channelDisconnected s.pc .outbound))) ∧
      (s.outConn = true →
        (s.peerReady = false → exec (.out m1 a) s = .next s) ∧
        (s.peerReady = true →
          exec (.out m1 a) s = .next { s with
            pc := s.pc + 2, trace := s.trace ++ [.output x], outs := if s.busy then s.outs ++ [x] else s.outs }))

/-- JT with the common semantics (R83, R85): taken when the predicate is not 0; the target is resolved by its own mode and
only then; nothing but the program counter changes. -/
def Obligations.JtFollowsItsRule : Prop :=
  ∀ (s : State) (m1 m2 : Mode) (a b : Int),
    encode (.jt m1 m2 a b) = [5 + 100 * (m1.digit : Int) + 1000 * (m2.digit : Int), a, b] ∧
    (∀ k : Nat, decodeOp ((5 + 100 * m1.digit + 1000 * m2.digit + 10000 * k : Nat) : Int) = .ok (.condJump true m1 m2)) ∧
    (s.source m1 a = none → exec (.jt m1 m2 a b) s = .next (s.raise (.addressOutOfRange s.pc a .load))) ∧
    (s.source m1 a = some 0 → exec (.jt m1 m2 a b) s = .next { s with pc := s.pc + 3 }) ∧
    ∀ p, s.source m1 a = some p → p ≠ 0 →
      (s.source m2 b = none → exec (.jt m1 m2 a b) s = .next (s.raise (.addressOutOfRange s.pc b .load))) ∧
      ∀ t, s.source m2 b = some t → exec (.jt m1 m2 a b) s = .next { s with pc := t }

/-- JF with the common semantics (R84, R85): taken when the predicate is 0. -/
def Obligations.JfFollowsItsRule : Prop :=
  ∀ (s : State) (m1 m2 : Mode) (a b : Int),
    encode (.jf m1 m2 a b) = [6 + 100 * (m1.digit : Int) + 1000 * (m2.digit : Int), a, b] ∧
    (∀ k : Nat, decodeOp ((6 + 100 * m1.digit + 1000 * m2.digit + 10000 * k : Nat) : Int) = .ok (.condJump false m1 m2)) ∧
    (s.source m1 a = none → exec (.jf m1 m2 a b) s = .next (s.raise (.addressOutOfRange s.pc a .load))) ∧
    (∀ p, s.source m1 a = some p → p ≠ 0 → exec (.jf m1 m2 a b) s = .next { s with pc := s.pc + 3 }) ∧
    (s.source m1 a = some 0 →
      (s.source m2 b = none → exec (.jf m1 m2 a b) s = .next (s.raise (.addressOutOfRange s.pc b .load))) ∧
      ∀ t, s.source m2 b = some t → exec (.jf m1 m2 a b) s = .next { s with pc := t })

/-- HLT (R88): its encodings; it always halts, and nothing but the status, the trace and the program counter changes; the
machine then offers neither to receive nor to send, and a further step changes nothing. -/
def Obligations.HltFollowsItsRule : Prop :=
  ∀ s : State, encode .hlt = [99] ∧
    (∀ k : Nat, decodeOp ((99 + 100 * k : Nat) : Int) = .ok .halt) ∧
    ∃ t, exec .hlt s = .next t ∧ t = { s with status := .halted, trace := s.trace ++ [.halt], pc := s.pc + 1 } ∧
      t.inReady = false ∧ t.outValid = false ∧ (t.busy = false → t.turns = [] → step t = .next t)

/-! ## What holds of every instruction -/

/-- The model refuses nothing that the decoder accepts, and an instruction's fault is a next state (R12; the
model's reading, log entry 8). That an IN or OUT that waits answers a next state too, where R12 and R78 say that there is no
step, is the model's reading (log entry 9). -/
def Obligations.ExecAlwaysAnswersNext : Prop := ∀ (i : Instr) (s : State), ∃ t, exec i s = .next t

/-- A fault in a step sets the status to Faulted with the record, appends the fault to the trace, and changes nothing else:
`mem` and `pc` keep the values they had (R62, R105). The status ports then show it (60_exceptions R102): `faulted`, `fault_code` 1
to 4, `fault_info`. That the code and the record are absent otherwise is the model's choice (log entry 14). -/
def Obligations.FaultLeavesAllElse : Prop :=
  (∀ (i : Instr) (s t : State) (f : Fault), s.status = .running → exec i s = .next t → t.status = .faulted f →
    t = { s with status := .faulted f, trace := s.trace ++ [.fault f] }) ∧
  (∀ (s : State) (f : Fault), s.status = .faulted f →
    s.faultedPort = true ∧ s.haltedPort = false ∧ s.faultInfo = some f ∧
    s.faultCode = some (match f with
      | .invalidOpcode _ _ => 1
      | .addressOutOfRange _ _ _ => 2
      | .channelDisconnected _ _ => 3
      | .arithmeticOverflow _ _ _ _ => 4)) ∧
  (∀ s : State, (∀ f, s.status ≠ .faulted f) →
    s.faultedPort = false ∧ s.faultInfo = none ∧ s.faultCode = none ∧ (s.haltedPort = true ↔ s.status = .halted))

/-- No instruction changes a cell other than its destination, or the length of memory (R14, R30, R62). -/
def Obligations.OnlyDestinationCellChanges : Prop :=
  ∀ (i : Instr) (s t : State), s.mem.wf = true → exec i s = .next t →
    t.mem.len = s.mem.len ∧ ∀ a : Int, i.destination ≠ some a → t.mem.read a = s.mem.read a

/-- What no instruction writes: the parameters, the connections, the host's readiness, the arbiter but for what its feeder
and drainer count (R13, R19, R20, R22). -/
def Obligations.InstructionFrame : Prop :=
  ∀ (i : Instr) (s t : State), exec i s = .next t →
    t.cfg = s.cfg ∧ t.inConn = s.inConn ∧ t.outConn = s.outConn ∧ t.outReady = s.outReady ∧ t.astatus = s.astatus ∧
    t.k = s.k ∧ t.carry = s.carry ∧ t.img = s.img ∧ t.nStages = s.nStages ∧ t.phases = s.phases ∧ t.turns = s.turns ∧
    ((∀ a, i ≠ .inp a) → t.inOffer = s.inOffer ∧ t.fed = s.fed) ∧ ((∀ m a, i ≠ .out m a) → t.outs = s.outs)

/-- Only HLT sets the halted flag (R16). -/
def Obligations.OnlyHltHalts : Prop :=
  ∀ (i : Instr) (s t : State), s.status = .running → exec i s = .next t → (t.status = .halted ↔ i = .hlt)

/-- The program counter after an instruction that takes no fault: its address plus its length; or, of a taken jump, the
target; or unmoved, when IN or OUT waits and nothing at all changes (R15, R61; R78, whose wait is a turn in the model's reading, log
entry 9). -/
def Obligations.PcAfterInstruction : Prop :=
  ∀ (i : Instr) (s t : State), s.status = .running → exec i s = .next t → (∀ f, t.status ≠ .faulted f) →
    t.pc = s.pc + (i.length : Int) ∨
    (t = s ∧ ((∃ a, i = .inp a) ∨ ∃ m a, i = .out m a)) ∨
    (∃ m1 m2 a b p, s.source m1 a = some p ∧ s.source m2 b = some t.pc ∧
      ((i = .jt m1 m2 a b ∧ p ≠ 0) ∨ (i = .jf m1 m2 a b ∧ p = 0)))

/-! ## The engine (40_decode_execute) -/

/-- When the cells at the program counter of a Running machine decode to an instruction, the core's turn is that instruction
(R57): `exec` at the state with the turn taken off the list. -/
def Obligations.StepRunsDecodedInstruction : Prop :=
  ∀ (s : State) (cells : List Int) (i : Instr), s.status = .running → s.coreIsNext = true →
    decodeCells cells = .ok (i, []) →
    (∀ (j : Nat) (v : Int), cells[j]? = some v → s.mem.read (s.pc + (j : Int)) = some v) →
    step s = exec i s.turnTaken

/-- A write is seen by the next step (20_memory R38), for every instruction that stores and every value: it leaves `v` at its
destination `d`, and the next step of the core runs the instruction that memory holds with `v` at `d`, be `d` its opcode cell
or one of its operand cells, or takes the decode failure `v`. -/
def Obligations.StoredCellIsFetchedNext : Prop :=
  ∀ (s : State) (cells : List Int) (i : Instr) (d v : Int), s.status = .running → s.coreIsNext = true → s.mem.wf = true →
    decodeCells cells = .ok (i, []) →
    (∀ (j : Nat) (x : Int), cells[j]? = some x → s.mem.read (s.pc + (j : Int)) = some x) →
    s.Stores d v i →
    ∃ t, step s = .next t ∧ s.mem.UpdatedAt t.mem d v ∧ t.status = .running ∧ t.pc = s.pc + (i.length : Int) ∧
      t.turns = s.turns.tail ∧
      (t.coreIsNext = true →
        (t.pc = d → ∀ e, decodeOp v = .error e → step t = .next (t.turnTaken.decodeFailure v)) ∧
        ∀ (next : List Int) (k : Instr), decodeCells next = .ok (k, []) →
          (∀ (j : Nat) (x : Int), next[j]? = some x →
            if t.pc + (j : Int) = d then x = v else s.mem.read (t.pc + (j : Int)) = some x) →
          step t = exec k t.turnTaken)

/-- A fetch outside memory faults (R58). -/
def Obligations.FetchOutsideFaults : Prop :=
  ∀ s : State, s.status = .running → s.coreIsNext = true → ¬ (0 ≤ s.pc ∧ s.pc < (s.mem.len : Int)) →
    step s = .next (s.turnTaken.raise (.addressOutOfRange s.pc s.pc .fetch))

/-- An operand cell outside memory faults, the first such (R60). -/
def Obligations.OperandCellOutsideFaults : Prop :=
  ∀ (s : State) (v : Int) (d : Operation) (n : Nat), s.status = .running → s.coreIsNext = true →
    s.mem.read s.pc = some v → decodeOp v = .ok d → 1 ≤ n → n ≤ d.arity →
    (∀ j : Nat, 1 ≤ j → j < n → s.mem.Valid (s.pc + (j : Int))) → ¬ s.mem.Valid (s.pc + (n : Int)) →
    step s = .next (s.turnTaken.raise (.addressOutOfRange s.pc (s.pc + (n : Int)) .operand))

/-- A decode failure (R59): under `fault` the machine faults; under `skip` the trace gets the event, the program counter
moves by one cell, and nothing else changes. -/
def Obligations.DecodeFailureByPolicy : Prop :=
  ∀ (s : State) (v : Int) (e : DecodeError), s.status = .running → s.coreIsNext = true → s.mem.read s.pc = some v →
    decodeOp v = .error e →
    (s.cfg.decodePolicy = .fault → step s = .next (s.turnTaken.raise (.invalidOpcode s.pc v))) ∧
    (s.cfg.decodePolicy = .skip →
      step s = .next { s.turnTaken with trace := s.trace ++ [.decodeError s.pc v], pc := s.pc + 1 })

/-- A step on a Halted machine is a no-op (R64): only the turn goes. -/
def Obligations.HaltedStepIsNoOp : Prop :=
  ∀ s : State, s.status = .halted → s.busy = false → s.coreIsNext = true → step s = .next s.turnTaken

/-- A Faulted machine has no step: asked for one, it answers its fault (R65). -/
def Obligations.FaultedMachineHasNoStep : Prop :=
  ∀ (s : State) (f : Fault), s.status = .faulted f → s.busy = false → s.coreIsNext = true → step s = .fault f

/-- A blocked machine has no step of its own (R67, R78): its turn changes nothing (the model's reading, log entry 9). -/
def Obligations.BlockedMachineWaits : Prop :=
  ∀ s : State, s.coreIsNext = true → s.blockedOnInput = true ∨ s.blockedOnOutput = true → step s = .next s.turnTaken

/-! ## Channels and the host (42_io_channels) -/

/-- The host dropping a half of a channel it holds (R77): the connection goes, the machine and the other channel stay. -/
def Obligations.HostDropsAChannel : Prop :=
  ∀ (s : State) (rest : List Turn), s.busy = false →
    (s.turns = .host .dropInbound :: rest →
      step s = .next { s with turns := rest, inConn := false, inOffer := none }) ∧
    (s.turns = .host .dropOutbound :: rest →
      step s = .next { s with turns := rest, outConn := false, outReady := false })

/-- A machine blocked at IN or OUT faults as soon as its peer goes (R77): in its next turn, with no transfer made. -/
def Obligations.BlockedMachineFaultsOnDisconnect : Prop :=
  ∀ (s : State) (rest : List Turn), s.busy = false →
    (s.turns = .host .dropInbound :: .core :: rest → s.inReady = true →
      ∃ t, step s = .next t ∧
        step t = .next { s with
          turns := rest, inConn := false, inOffer := none, status := .faulted (.channelDisconnected s.pc .inbound)
          trace := s.trace ++ [.fault (.channelDisconnected s.pc .inbound)] }) ∧
    (s.turns = .host .dropOutbound :: .core :: rest → s.outValid = true →
      ∃ t, step s = .next t ∧
        step t = .next { s with
          turns := rest, outConn := false, outReady := false, status := .faulted (.channelDisconnected s.pc .outbound)
          trace := s.trace ++ [.fault (.channelDisconnected s.pc .outbound)] })

/-- A connection goes from true to false at most once and never back, except where the machine is made anew (R20). -/
def Obligations.ConnectionsNeverReturn : Prop :=
  ∀ s t : State, step s = .next t → s.rebuildsNext = false →
    (t.inConn = true → s.inConn = true) ∧ (t.outConn = true → s.outConn = true)

/-- The trace is only appended to, except where the machine is made anew (R24). -/
def Obligations.TraceOnlyGrows : Prop :=
  ∀ s t : State, step s = .next t → s.rebuildsNext = false → ∃ events, t.trace = s.trace ++ events

/-- What the host does in its turns (R80 to R82; 46_pipeline R100), and what it cannot do. Its turns, but for those that make the
machine anew, leave memory, `pc` and the rest of the machine as they are (R82). An offer is put on the port when the host holds
the half, the channel is connected, no offer stands (R81) and the value is a cell (R5); a readiness is set when the host holds
the half and the channel is connected; an image is put on the arbiter's port. That nothing happens otherwise is the model's
choice (log entry 10). -/
def Obligations.HostLeavesMachineAlone : Prop :=
  ∀ (s : State) (rest : List Turn),
    (∀ act, s.turns = .host act :: rest → act.rebuilds = false →
      ∃ t, step s = .next t ∧ t.mem = s.mem ∧ t.pc = s.pc ∧ t.status = s.status ∧ t.trace = s.trace ∧ t.turns = rest ∧
        t.cfg = s.cfg ∧ t.astatus = s.astatus ∧ t.k = s.k ∧ t.carry = s.carry ∧ t.fed = s.fed ∧ t.outs = s.outs) ∧
    (∀ v, s.turns = .host (.offer v) :: rest →
      step s = .next { s with
        turns := rest
        inOffer :=
          if s.busy = false ∧ s.inConn = true ∧ s.inOffer = none ∧ inRange s.cfg.width v then some v else s.inOffer }) ∧
    (∀ r, s.turns = .host (.setReady r) :: rest →
      step s = .next { s with
        turns := rest, outReady := if s.busy = false ∧ s.outConn = true then r else s.outReady }) ∧
    (∀ img, s.turns = .host (.setImage img) :: rest →
      step s = .next { s with turns := rest, img := if ∀ v ∈ img, inRange s.cfg.width v then img else s.img })

/-- A transfer happens exactly when valid and ready are both 1 at the core's turn (R80), and it is what the trace shows. -/
def Obligations.TransferExactlyWhenBothReady : Prop :=
  ∀ s t : State, s.status = .running → s.coreIsNext = true → step s = .next t →
    ((∃ v, t.trace = s.trace ++ [.input v]) ↔ (s.inReady = true ∧ s.peerOffer.isSome = true)) ∧
    ((∃ v, t.trace = s.trace ++ [.output v]) ↔ (s.outValid = true ∧ s.peerReady = true))

/-- A peer that raises `in_valid` keeps it and `in_data` unchanged until the transfer or until it closes (R81). -/
def Obligations.OfferStandsUntilTaken : Prop :=
  ∀ (s t : State) (v : Int), s.inOffer = some v → s.rebuildsNext = false → step s = .next t →
    t.inOffer = some v ∨ t.trace = s.trace ++ [.input v] ∨ t.inConn = false

/-- Once the machine raises `in_ready` it keeps it until the transfer or until the channel closes (R81). -/
def Obligations.InReadyStands : Prop :=
  ∀ s t : State, s.inReady = true → s.rebuildsNext = false → step s = .next t →
    t.inReady = true ∨ (∃ v, t.trace = s.trace ++ [.input v]) ∨ t.inConn = false

/-- Once the machine raises `out_valid` it keeps it and `out_data` unchanged until the transfer or until the channel closes
(R81). -/
def Obligations.OutDataStands : Prop :=
  ∀ (s t : State) (x : Int), s.outData = some x → s.rebuildsNext = false → step s = .next t →
    t.outData = some x ∨ t.trace = s.trace ++ [.output x] ∨ t.outConn = false

/-! ## Reset and stop states (10_state R25, 60_exceptions R113, 70_reset_and_hazards) -/

/-- The reset values of the machine with the empty image (R25) and of the arbiter (R26), and a power-up: the arbiter takes its
reset values (R115). That reset has the empty image, and that the core and the ports take their reset values at power-up too,
is the model's choice (log entries 5 and 19). -/
def Obligations.ResetValues : Prop :=
  (State.reset.mem.len = 0 ∧ (∀ a : Int, State.reset.mem.read a = none) ∧ State.reset.pc = 0 ∧
    State.reset.status = .running ∧ State.reset.inConn = true ∧ State.reset.outConn = true ∧ State.reset.trace = [] ∧
    State.reset.astatus = .idle ∧ State.reset.k = 0 ∧ State.reset.carry = 0 ∧ State.reset.fed = 0 ∧ State.reset.outs = []) ∧
  ∀ (s : State) (rest : List Turn), s.turns = .host .powerUp :: rest →
    ∃ t, step s = .next t ∧ t.astatus = .idle ∧ t.k = 0 ∧ t.carry = 0 ∧ t.fed = 0 ∧ t.outs = [] ∧
      t = { State.reset with cfg := s.cfg, turns := rest }

/-- Machine reset with an image (R114): `L` is its length, `mem[a] = IMG[a]`, and the other reset values of R25; the
arbiter stays as it is. -/
def Obligations.ResetLoadsImage : Prop :=
  ∀ (s : State) (img : List Int) (rest : List Turn), s.busy = false → (∀ v ∈ img, inRange s.cfg.width v) →
    s.turns = .host (.reset img) :: rest →
    ∃ t, step s = .next t ∧ t.mem.len = img.length ∧ (∀ j : Nat, t.mem.read (j : Int) = img[j]?) ∧ t.pc = 0 ∧
      t.status = .running ∧ t.inConn = true ∧ t.outConn = true ∧ t.trace = [] ∧ t.haltedPort = false ∧
      t.faultedPort = false ∧ t.cfg = s.cfg ∧ t.astatus = s.astatus ∧ t.k = s.k ∧ t.carry = s.carry ∧ t.fed = s.fed ∧
      t.outs = s.outs ∧ t.turns = rest

/-- With an empty image the first step raises `AddressOutOfRange(0, 0, fetch)` (R114). -/
def Obligations.EmptyImageFaultsAtFetch : Prop :=
  ∃ t, step State.reset = .next t ∧ t.status = .faulted (.addressOutOfRange 0 0 .fetch) ∧
    t.trace = [.fault (.addressOutOfRange 0 0 .fetch)] ∧ t.mem = State.reset.mem ∧ t.pc = 0

/-- Memory and `pc` keep their values in the Halted and Faulted states until reset, and so does the status (R16, R17,
R113). -/
def Obligations.StoppedMachineKeepsItsState : Prop :=
  ∀ s t : State, s.status ≠ .running → s.rebuildsNext = false → step s = .next t →
    t.status = s.status ∧ t.mem = s.mem ∧ t.pc = s.pc ∧ t.trace = s.trace

/-- The invariant holds at reset. -/
def Obligations.InvariantAtReset : Prop := State.reset.Inv

/-- Every step keeps the invariant: every stored value is a cell of `W` bits (R5), the memory keeps its canonical form, and
the arbiter is consistent (R22). -/
def Obligations.StepKeepsInvariant : Prop := ∀ s t : State, s.Inv → step s = .next t → t.Inv

/-- No step changes the parameters (R13), and no step but one that makes the machine anew changes the length of memory
(R6, R14). -/
def Obligations.ParametersNeverChange : Prop :=
  ∀ s t : State, step s = .next t → t.cfg = s.cfg ∧ (s.rebuildsNext = false → t.mem.len = s.mem.len)

/-! ## The series pipeline arbiter (46_pipeline) -/

/-- A start whose phase list has not `N` values: `PipelineArity`, and no stage is built (R90). -/
def Obligations.StartWithWrongArity : Prop :=
  ∀ (s : State) (img phases : List Int) (n : Nat) (rest : List Turn), s.busy = false →
    (∀ v ∈ img, inRange s.cfg.width v) → (∀ v ∈ phases, inRange s.cfg.width v) →
    s.turns = .host (.start img n phases) :: rest → phases.length ≠ n →
    ∃ t, step s = .next t ∧ t.astatus = .afaulted (.pipelineArity n phases.length) ∧
      t.mem = s.mem ∧ t.pc = s.pc ∧ t.status = s.status ∧ t.trace = s.trace ∧ t.inConn = s.inConn ∧ t.outConn = s.outConn

/-- An accepted start (R91, R115): the arbiter's reset values, then stage 0 on a fresh machine with its own copy of the
image; with no stage the result 0 at once (R98). -/
def Obligations.StartBuildsStageZero : Prop :=
  ∀ (s : State) (img phases : List Int) (rest : List Turn), s.busy = false →
    (∀ v ∈ img, inRange s.cfg.width v) → (∀ v ∈ phases, inRange s.cfg.width v) →
    s.turns = .host (.start img phases.length phases) :: rest →
    ∃ t, step s = .next t ∧ t.k = 0 ∧ t.carry = 0 ∧ t.fed = 0 ∧ t.outs = [] ∧ t.img = img ∧ t.phases = phases ∧
      t.nStages = phases.length ∧
      (phases = [] → t.astatus = .done 0) ∧
      (phases ≠ [] → t.astatus = .stage ∧ t.mem.len = img.length ∧ (∀ j : Nat, t.mem.read (j : Int) = img[j]?) ∧
        t.pc = 0 ∧ t.status = .running ∧ t.inConn = true ∧ t.outConn = true ∧ t.trace = [])

/-- While the arbiter is busy it holds the stage's channels, and a start is ignored: no turn of the host but a power-up
changes anything (R79, R91, R100), save that an image it puts on the `img` port stands there for the next stage's reset. -/
def Obligations.HostCannotReachStage : Prop :=
  ∀ (s : State) (act : HostAct) (rest : List Turn), s.busy = true → s.turns = .host act :: rest → act ≠ .powerUp →
    ∃ t, step s = .next t ∧ t = { s with turns := rest, img := t.img } ∧ ((∀ img, act ≠ .setImage img) → t.img = s.img)

/-- The feeder (R92): a stage's IN takes the phase, then the carry, and a third IN blocks for ever; that its
turn is one that changes nothing is the model's reading of R78 and R92 (log entry 9). -/
def Obligations.FeederGivesPhaseThenCarry : Prop :=
  ∀ (s : State) (a p : Int), s.busy = true → s.inConn = true → s.mem.wf = true → s.mem.Valid a →
    s.phases[s.k]? = some p →
    (s.fed = 0 → ∃ t, exec (.inp a) s = .next t ∧ s.mem.UpdatedAt t.mem a p ∧
      t = { s with mem := t.mem, pc := s.pc + 2, trace := s.trace ++ [.input p], fed := 1 }) ∧
    (s.fed = 1 → ∃ t, exec (.inp a) s = .next t ∧ s.mem.UpdatedAt t.mem a s.carry ∧
      t = { s with mem := t.mem, pc := s.pc + 2, trace := s.trace ++ [.input s.carry], fed := 2 }) ∧
    (2 ≤ s.fed → exec (.inp a) s = .next s)

/-- The drainer (R93): a stage's OUT never waits, and its value is appended to `outs`. -/
def Obligations.DrainerTakesEveryOutput : Prop :=
  ∀ (s : State) (m : Mode) (a x : Int), s.busy = true → s.outConn = true → s.source m a = some x →
    exec (.out m a) s =
      .next { s with pc := s.pc + 2, trace := s.trace ++ [.output x], outs := s.outs ++ [x] }

/-- The end of a stage whose machine faulted (R97), took fewer than two inputs (R96), or emitted other than one value (R95),
in this order; nothing but the arbiter's status changes, and no later stage is built. The arbiter's ports then show its fault
(60_exceptions R102, R105; 46_pipeline R100): `afault`, `afault_code` 16 to 19, `afault_info`. -/
def Obligations.StageEndChecks : Prop :=
  (∀ s : State, s.busy = true → s.coreIsNext = true →
    (∀ f, s.status = .faulted f → step s = .next { s.turnTaken with astatus := .afaulted (.stageFault s.k f) }) ∧
    (s.status = .halted → s.fed < 2 →
      step s = .next { s.turnTaken with astatus := .afaulted (.stageUnconsumedInput s.k s.fed) }) ∧
    (s.status = .halted → 2 ≤ s.fed → s.outs.length ≠ 1 →
      step s = .next { s.turnTaken with astatus := .afaulted (.stageOutputCount s.k s.outs.length) })) ∧
  (∀ (s : State) (g : ArbiterFault), s.astatus = .afaulted g →
    s.afaultPort = true ∧ s.busy = false ∧ s.donePort = false ∧ s.afaultInfo = some g ∧
    s.afaultCode = some (match g with
      | .pipelineArity _ _ => 16
      | .stageFault _ _ => 17
      | .stageUnconsumedInput _ _ => 18
      | .stageOutputCount _ _ => 19))

/-- The end of a stage that passes its checks: its one output is the new carry (R93); then the next stage on a fresh machine
(R91, R94), its image read from the `img` port at this reset (R100), or, after all `N`, the result (R98). The ports follow
(R100): `busy` in a stage; `done` with `result` after the last, when nothing is at fault. -/
def Obligations.CarryPassesToNextStage : Prop :=
  ∀ (s : State) (r : Int), s.busy = true → s.coreIsNext = true → s.status = .halted → 2 ≤ s.fed → s.outs = [r] →
    ∃ t, step s = .next t ∧ t.carry = r ∧ t.k = s.k + 1 ∧ t.img = s.img ∧ t.phases = s.phases ∧ t.nStages = s.nStages ∧
      t.afaultPort = false ∧ t.afaultCode = none ∧
      (s.k + 1 < s.nStages → t.astatus = .stage ∧ t.busy = true ∧ t.donePort = false ∧ t.result = none ∧ t.fed = 0 ∧
        t.outs = [] ∧ t.mem.len = s.img.length ∧ (∀ j : Nat, t.mem.read (j : Int) = s.img[j]?) ∧ t.pc = 0 ∧
        t.status = .running ∧ t.inConn = true ∧ t.outConn = true ∧ t.trace = []) ∧
      (s.nStages ≤ s.k + 1 → t.astatus = .done r ∧ t.busy = false ∧ t.donePort = true ∧ t.result = some r ∧
        t.mem = s.mem ∧ t.pc = s.pc ∧ t.status = .halted)

/-- A stage depends only on its image, its phase and the incoming carry (R101): two stages that agree on these and on the
machine step alike, whatever the stage's index, the other phases, the host's signals and the turns to come. -/
def Obligations.StageDependsOnlyOnItsInputs : Prop :=
  ∀ s t s' : State, s.SameStage t → s.coreIsNext = true → t.coreIsNext = true → s.status = .running → step s = .next s' →
    ∃ t', step t = .next t' ∧ s'.SameStage t'

/-- The pipeline contract (R89), on the one core (log entry 6): a run ends with the result `r` exactly when `r` is the last carry
of the loop over its stages, each a fresh single stage with its phase and the carry before it. The turns are any list in
which the host neither powers up, nor starts another run, nor puts another image on the `img` port; whatever else it does, and
in whatever order the turns come (log entry 7), the result is the same. -/
def Obligations.PipelineComputesCarryChain : Prop :=
  ∀ (cfg : Config) (img phases : List Int) (r : Int) (turns : List Turn), (∀ act, Turn.host act ∈ turns → act.keepsRun = true) →
    ((∃ t, Reaches { (State.powered cfg).startRun img phases.length phases with turns := turns } t ∧ t.astatus = .done r) ↔
      CarryChain cfg img phases 0 r)
end

