-- ==== Sys2Proof/Laws/State.lean ====
section
/-! SUPPORT. One lemma for each field under each update of the state, so that no proof unfolds a record update. -/

namespace Sys2Proof.Machine

variable (s : State)

/-! ## memWrite -/

@[simp] theorem State.cfg_memWrite (a : Int) (v : Int) : (s.memWrite a v).cfg = s.cfg := rfl
@[simp] theorem State.mem_memWrite (a : Int) (v : Int) : (s.memWrite a v).mem = s.mem.write a v := rfl
@[simp] theorem State.pc_memWrite (a : Int) (v : Int) : (s.memWrite a v).pc = s.pc := rfl
@[simp] theorem State.status_memWrite (a : Int) (v : Int) : (s.memWrite a v).status = s.status := rfl
@[simp] theorem State.inConn_memWrite (a : Int) (v : Int) : (s.memWrite a v).inConn = s.inConn := rfl
@[simp] theorem State.outConn_memWrite (a : Int) (v : Int) : (s.memWrite a v).outConn = s.outConn := rfl
@[simp] theorem State.trace_memWrite (a : Int) (v : Int) : (s.memWrite a v).trace = s.trace := rfl
@[simp] theorem State.inOffer_memWrite (a : Int) (v : Int) : (s.memWrite a v).inOffer = s.inOffer := rfl
@[simp] theorem State.outReady_memWrite (a : Int) (v : Int) : (s.memWrite a v).outReady = s.outReady := rfl
@[simp] theorem State.astatus_memWrite (a : Int) (v : Int) : (s.memWrite a v).astatus = s.astatus := rfl
@[simp] theorem State.k_memWrite (a : Int) (v : Int) : (s.memWrite a v).k = s.k := rfl
@[simp] theorem State.carry_memWrite (a : Int) (v : Int) : (s.memWrite a v).carry = s.carry := rfl
@[simp] theorem State.fed_memWrite (a : Int) (v : Int) : (s.memWrite a v).fed = s.fed := rfl
@[simp] theorem State.outs_memWrite (a : Int) (v : Int) : (s.memWrite a v).outs = s.outs := rfl
@[simp] theorem State.img_memWrite (a : Int) (v : Int) : (s.memWrite a v).img = s.img := rfl
@[simp] theorem State.nStages_memWrite (a : Int) (v : Int) : (s.memWrite a v).nStages = s.nStages := rfl
@[simp] theorem State.phases_memWrite (a : Int) (v : Int) : (s.memWrite a v).phases = s.phases := rfl
@[simp] theorem State.turns_memWrite (a : Int) (v : Int) : (s.memWrite a v).turns = s.turns := rfl
@[simp] theorem State.busy_memWrite (a : Int) (v : Int) : (s.memWrite a v).busy = s.busy := rfl

/-! ## emit -/

@[simp] theorem State.cfg_emit (e : Event) : (s.emit e).cfg = s.cfg := rfl
@[simp] theorem State.mem_emit (e : Event) : (s.emit e).mem = s.mem := rfl
@[simp] theorem State.pc_emit (e : Event) : (s.emit e).pc = s.pc := rfl
@[simp] theorem State.status_emit (e : Event) : (s.emit e).status = s.status := rfl
@[simp] theorem State.inConn_emit (e : Event) : (s.emit e).inConn = s.inConn := rfl
@[simp] theorem State.outConn_emit (e : Event) : (s.emit e).outConn = s.outConn := rfl
@[simp] theorem State.trace_emit (e : Event) : (s.emit e).trace = s.trace ++ [e] := rfl
@[simp] theorem State.inOffer_emit (e : Event) : (s.emit e).inOffer = s.inOffer := rfl
@[simp] theorem State.outReady_emit (e : Event) : (s.emit e).outReady = s.outReady := rfl
@[simp] theorem State.astatus_emit (e : Event) : (s.emit e).astatus = s.astatus := rfl
@[simp] theorem State.k_emit (e : Event) : (s.emit e).k = s.k := rfl
@[simp] theorem State.carry_emit (e : Event) : (s.emit e).carry = s.carry := rfl
@[simp] theorem State.fed_emit (e : Event) : (s.emit e).fed = s.fed := rfl
@[simp] theorem State.outs_emit (e : Event) : (s.emit e).outs = s.outs := rfl
@[simp] theorem State.img_emit (e : Event) : (s.emit e).img = s.img := rfl
@[simp] theorem State.nStages_emit (e : Event) : (s.emit e).nStages = s.nStages := rfl
@[simp] theorem State.phases_emit (e : Event) : (s.emit e).phases = s.phases := rfl
@[simp] theorem State.turns_emit (e : Event) : (s.emit e).turns = s.turns := rfl
@[simp] theorem State.busy_emit (e : Event) : (s.emit e).busy = s.busy := rfl

/-! ## advance -/

@[simp] theorem State.cfg_advance (n : Int) : (s.advance n).cfg = s.cfg := rfl
@[simp] theorem State.mem_advance (n : Int) : (s.advance n).mem = s.mem := rfl
@[simp] theorem State.pc_advance (n : Int) : (s.advance n).pc = s.pc + n := rfl
@[simp] theorem State.status_advance (n : Int) : (s.advance n).status = s.status := rfl
@[simp] theorem State.inConn_advance (n : Int) : (s.advance n).inConn = s.inConn := rfl
@[simp] theorem State.outConn_advance (n : Int) : (s.advance n).outConn = s.outConn := rfl
@[simp] theorem State.trace_advance (n : Int) : (s.advance n).trace = s.trace := rfl
@[simp] theorem State.inOffer_advance (n : Int) : (s.advance n).inOffer = s.inOffer := rfl
@[simp] theorem State.outReady_advance (n : Int) : (s.advance n).outReady = s.outReady := rfl
@[simp] theorem State.astatus_advance (n : Int) : (s.advance n).astatus = s.astatus := rfl
@[simp] theorem State.k_advance (n : Int) : (s.advance n).k = s.k := rfl
@[simp] theorem State.carry_advance (n : Int) : (s.advance n).carry = s.carry := rfl
@[simp] theorem State.fed_advance (n : Int) : (s.advance n).fed = s.fed := rfl
@[simp] theorem State.outs_advance (n : Int) : (s.advance n).outs = s.outs := rfl
@[simp] theorem State.img_advance (n : Int) : (s.advance n).img = s.img := rfl
@[simp] theorem State.nStages_advance (n : Int) : (s.advance n).nStages = s.nStages := rfl
@[simp] theorem State.phases_advance (n : Int) : (s.advance n).phases = s.phases := rfl
@[simp] theorem State.turns_advance (n : Int) : (s.advance n).turns = s.turns := rfl
@[simp] theorem State.busy_advance (n : Int) : (s.advance n).busy = s.busy := rfl

/-! ## raise -/

@[simp] theorem State.cfg_raise (f : Fault) : (s.raise f).cfg = s.cfg := rfl
@[simp] theorem State.mem_raise (f : Fault) : (s.raise f).mem = s.mem := rfl
@[simp] theorem State.pc_raise (f : Fault) : (s.raise f).pc = s.pc := rfl
@[simp] theorem State.status_raise (f : Fault) : (s.raise f).status = .faulted f := rfl
@[simp] theorem State.inConn_raise (f : Fault) : (s.raise f).inConn = s.inConn := rfl
@[simp] theorem State.outConn_raise (f : Fault) : (s.raise f).outConn = s.outConn := rfl
@[simp] theorem State.trace_raise (f : Fault) : (s.raise f).trace = s.trace ++ [.fault f] := rfl
@[simp] theorem State.inOffer_raise (f : Fault) : (s.raise f).inOffer = s.inOffer := rfl
@[simp] theorem State.outReady_raise (f : Fault) : (s.raise f).outReady = s.outReady := rfl
@[simp] theorem State.astatus_raise (f : Fault) : (s.raise f).astatus = s.astatus := rfl
@[simp] theorem State.k_raise (f : Fault) : (s.raise f).k = s.k := rfl
@[simp] theorem State.carry_raise (f : Fault) : (s.raise f).carry = s.carry := rfl
@[simp] theorem State.fed_raise (f : Fault) : (s.raise f).fed = s.fed := rfl
@[simp] theorem State.outs_raise (f : Fault) : (s.raise f).outs = s.outs := rfl
@[simp] theorem State.img_raise (f : Fault) : (s.raise f).img = s.img := rfl
@[simp] theorem State.nStages_raise (f : Fault) : (s.raise f).nStages = s.nStages := rfl
@[simp] theorem State.phases_raise (f : Fault) : (s.raise f).phases = s.phases := rfl
@[simp] theorem State.turns_raise (f : Fault) : (s.raise f).turns = s.turns := rfl
@[simp] theorem State.busy_raise (f : Fault) : (s.raise f).busy = s.busy := rfl

/-! ## resetCore -/

@[simp] theorem State.cfg_resetCore (img : List Int) : (s.resetCore img).cfg = s.cfg := rfl
@[simp] theorem State.mem_resetCore (img : List Int) : (s.resetCore img).mem = Memory.ofImage img := rfl
@[simp] theorem State.pc_resetCore (img : List Int) : (s.resetCore img).pc = 0 := rfl
@[simp] theorem State.status_resetCore (img : List Int) : (s.resetCore img).status = .running := rfl
@[simp] theorem State.inConn_resetCore (img : List Int) : (s.resetCore img).inConn = true := rfl
@[simp] theorem State.outConn_resetCore (img : List Int) : (s.resetCore img).outConn = true := rfl
@[simp] theorem State.trace_resetCore (img : List Int) : (s.resetCore img).trace = [] := rfl
@[simp] theorem State.inOffer_resetCore (img : List Int) : (s.resetCore img).inOffer = none := rfl
@[simp] theorem State.outReady_resetCore (img : List Int) : (s.resetCore img).outReady = false := rfl
@[simp] theorem State.astatus_resetCore (img : List Int) : (s.resetCore img).astatus = s.astatus := rfl
@[simp] theorem State.k_resetCore (img : List Int) : (s.resetCore img).k = s.k := rfl
@[simp] theorem State.carry_resetCore (img : List Int) : (s.resetCore img).carry = s.carry := rfl
@[simp] theorem State.fed_resetCore (img : List Int) : (s.resetCore img).fed = s.fed := rfl
@[simp] theorem State.outs_resetCore (img : List Int) : (s.resetCore img).outs = s.outs := rfl
@[simp] theorem State.img_resetCore (img : List Int) : (s.resetCore img).img = s.img := rfl
@[simp] theorem State.nStages_resetCore (img : List Int) : (s.resetCore img).nStages = s.nStages := rfl
@[simp] theorem State.phases_resetCore (img : List Int) : (s.resetCore img).phases = s.phases := rfl
@[simp] theorem State.turns_resetCore (img : List Int) : (s.resetCore img).turns = s.turns := rfl
@[simp] theorem State.busy_resetCore (img : List Int) : (s.resetCore img).busy = s.busy := rfl

/-! ## arbiterRaise -/

@[simp] theorem State.cfg_arbiterRaise (g : ArbiterFault) : (s.arbiterRaise g).cfg = s.cfg := rfl
@[simp] theorem State.mem_arbiterRaise (g : ArbiterFault) : (s.arbiterRaise g).mem = s.mem := rfl
@[simp] theorem State.pc_arbiterRaise (g : ArbiterFault) : (s.arbiterRaise g).pc = s.pc := rfl
@[simp] theorem State.status_arbiterRaise (g : ArbiterFault) : (s.arbiterRaise g).status = s.status := rfl
@[simp] theorem State.inConn_arbiterRaise (g : ArbiterFault) : (s.arbiterRaise g).inConn = s.inConn := rfl
@[simp] theorem State.outConn_arbiterRaise (g : ArbiterFault) : (s.arbiterRaise g).outConn = s.outConn := rfl
@[simp] theorem State.trace_arbiterRaise (g : ArbiterFault) : (s.arbiterRaise g).trace = s.trace := rfl
@[simp] theorem State.inOffer_arbiterRaise (g : ArbiterFault) : (s.arbiterRaise g).inOffer = s.inOffer := rfl
@[simp] theorem State.outReady_arbiterRaise (g : ArbiterFault) : (s.arbiterRaise g).outReady = s.outReady := rfl
@[simp] theorem State.astatus_arbiterRaise (g : ArbiterFault) : (s.arbiterRaise g).astatus = .afaulted g := rfl
@[simp] theorem State.k_arbiterRaise (g : ArbiterFault) : (s.arbiterRaise g).k = s.k := rfl
@[simp] theorem State.carry_arbiterRaise (g : ArbiterFault) : (s.arbiterRaise g).carry = s.carry := rfl
@[simp] theorem State.fed_arbiterRaise (g : ArbiterFault) : (s.arbiterRaise g).fed = s.fed := rfl
@[simp] theorem State.outs_arbiterRaise (g : ArbiterFault) : (s.arbiterRaise g).outs = s.outs := rfl
@[simp] theorem State.img_arbiterRaise (g : ArbiterFault) : (s.arbiterRaise g).img = s.img := rfl
@[simp] theorem State.nStages_arbiterRaise (g : ArbiterFault) : (s.arbiterRaise g).nStages = s.nStages := rfl
@[simp] theorem State.phases_arbiterRaise (g : ArbiterFault) : (s.arbiterRaise g).phases = s.phases := rfl
@[simp] theorem State.turns_arbiterRaise (g : ArbiterFault) : (s.arbiterRaise g).turns = s.turns := rfl
@[simp] theorem State.busy_arbiterRaise (g : ArbiterFault) : (s.arbiterRaise g).busy = false := rfl

/-! ## turnTaken -/

@[simp] theorem State.cfg_turnTaken : s.turnTaken.cfg = s.cfg := rfl
@[simp] theorem State.mem_turnTaken : s.turnTaken.mem = s.mem := rfl
@[simp] theorem State.pc_turnTaken : s.turnTaken.pc = s.pc := rfl
@[simp] theorem State.status_turnTaken : s.turnTaken.status = s.status := rfl
@[simp] theorem State.inConn_turnTaken : s.turnTaken.inConn = s.inConn := rfl
@[simp] theorem State.outConn_turnTaken : s.turnTaken.outConn = s.outConn := rfl
@[simp] theorem State.trace_turnTaken : s.turnTaken.trace = s.trace := rfl
@[simp] theorem State.inOffer_turnTaken : s.turnTaken.inOffer = s.inOffer := rfl
@[simp] theorem State.outReady_turnTaken : s.turnTaken.outReady = s.outReady := rfl
@[simp] theorem State.astatus_turnTaken : s.turnTaken.astatus = s.astatus := rfl
@[simp] theorem State.k_turnTaken : s.turnTaken.k = s.k := rfl
@[simp] theorem State.carry_turnTaken : s.turnTaken.carry = s.carry := rfl
@[simp] theorem State.fed_turnTaken : s.turnTaken.fed = s.fed := rfl
@[simp] theorem State.outs_turnTaken : s.turnTaken.outs = s.outs := rfl
@[simp] theorem State.img_turnTaken : s.turnTaken.img = s.img := rfl
@[simp] theorem State.nStages_turnTaken : s.turnTaken.nStages = s.nStages := rfl
@[simp] theorem State.phases_turnTaken : s.turnTaken.phases = s.phases := rfl
@[simp] theorem State.turns_turnTaken : s.turnTaken.turns = s.turns.tail := rfl
@[simp] theorem State.busy_turnTaken : s.turnTaken.busy = s.busy := rfl

/-! ## The peer's half of a transfer -/

@[simp] theorem State.cfg_takeOffer : s.takeOffer.cfg = s.cfg := by unfold State.takeOffer; split <;> rfl
@[simp] theorem State.mem_takeOffer : s.takeOffer.mem = s.mem := by unfold State.takeOffer; split <;> rfl
@[simp] theorem State.pc_takeOffer : s.takeOffer.pc = s.pc := by unfold State.takeOffer; split <;> rfl
@[simp] theorem State.status_takeOffer : s.takeOffer.status = s.status := by unfold State.takeOffer; split <;> rfl
@[simp] theorem State.inConn_takeOffer : s.takeOffer.inConn = s.inConn := by unfold State.takeOffer; split <;> rfl
@[simp] theorem State.outConn_takeOffer : s.takeOffer.outConn = s.outConn := by unfold State.takeOffer; split <;> rfl
@[simp] theorem State.trace_takeOffer : s.takeOffer.trace = s.trace := by unfold State.takeOffer; split <;> rfl
@[simp] theorem State.outReady_takeOffer : s.takeOffer.outReady = s.outReady := by unfold State.takeOffer; split <;> rfl
@[simp] theorem State.astatus_takeOffer : s.takeOffer.astatus = s.astatus := by unfold State.takeOffer; split <;> rfl
@[simp] theorem State.k_takeOffer : s.takeOffer.k = s.k := by unfold State.takeOffer; split <;> rfl
@[simp] theorem State.carry_takeOffer : s.takeOffer.carry = s.carry := by unfold State.takeOffer; split <;> rfl
@[simp] theorem State.outs_takeOffer : s.takeOffer.outs = s.outs := by unfold State.takeOffer; split <;> rfl
@[simp] theorem State.img_takeOffer : s.takeOffer.img = s.img := by unfold State.takeOffer; split <;> rfl
@[simp] theorem State.nStages_takeOffer : s.takeOffer.nStages = s.nStages := by unfold State.takeOffer; split <;> rfl
@[simp] theorem State.phases_takeOffer : s.takeOffer.phases = s.phases := by unfold State.takeOffer; split <;> rfl
@[simp] theorem State.turns_takeOffer : s.takeOffer.turns = s.turns := by unfold State.takeOffer; split <;> rfl
@[simp] theorem State.fed_takeOffer : s.takeOffer.fed = if s.busy then s.fed + 1 else s.fed := by unfold State.takeOffer; split <;> rfl
@[simp] theorem State.inOffer_takeOffer : s.takeOffer.inOffer = if s.busy then s.inOffer else none := by unfold State.takeOffer; split <;> rfl
@[simp] theorem State.busy_takeOffer : s.takeOffer.busy = s.busy := by unfold State.takeOffer; split <;> rfl

@[simp] theorem State.cfg_deliver (x : Int) : (s.deliver x).cfg = s.cfg := by unfold State.deliver; split <;> rfl
@[simp] theorem State.mem_deliver (x : Int) : (s.deliver x).mem = s.mem := by unfold State.deliver; split <;> rfl
@[simp] theorem State.pc_deliver (x : Int) : (s.deliver x).pc = s.pc := by unfold State.deliver; split <;> rfl
@[simp] theorem State.status_deliver (x : Int) : (s.deliver x).status = s.status := by unfold State.deliver; split <;> rfl
@[simp] theorem State.inConn_deliver (x : Int) : (s.deliver x).inConn = s.inConn := by unfold State.deliver; split <;> rfl
@[simp] theorem State.outConn_deliver (x : Int) : (s.deliver x).outConn = s.outConn := by unfold State.deliver; split <;> rfl
@[simp] theorem State.trace_deliver (x : Int) : (s.deliver x).trace = s.trace := by unfold State.deliver; split <;> rfl
@[simp] theorem State.inOffer_deliver (x : Int) : (s.deliver x).inOffer = s.inOffer := by unfold State.deliver; split <;> rfl
@[simp] theorem State.outReady_deliver (x : Int) : (s.deliver x).outReady = s.outReady := by unfold State.deliver; split <;> rfl
@[simp] theorem State.astatus_deliver (x : Int) : (s.deliver x).astatus = s.astatus := by unfold State.deliver; split <;> rfl
@[simp] theorem State.k_deliver (x : Int) : (s.deliver x).k = s.k := by unfold State.deliver; split <;> rfl
@[simp] theorem State.carry_deliver (x : Int) : (s.deliver x).carry = s.carry := by unfold State.deliver; split <;> rfl
@[simp] theorem State.fed_deliver (x : Int) : (s.deliver x).fed = s.fed := by unfold State.deliver; split <;> rfl
@[simp] theorem State.img_deliver (x : Int) : (s.deliver x).img = s.img := by unfold State.deliver; split <;> rfl
@[simp] theorem State.nStages_deliver (x : Int) : (s.deliver x).nStages = s.nStages := by unfold State.deliver; split <;> rfl
@[simp] theorem State.phases_deliver (x : Int) : (s.deliver x).phases = s.phases := by unfold State.deliver; split <;> rfl
@[simp] theorem State.turns_deliver (x : Int) : (s.deliver x).turns = s.turns := by unfold State.deliver; split <;> rfl
@[simp] theorem State.outs_deliver (x : Int) : (s.deliver x).outs = if s.busy then s.outs ++ [x] else s.outs := by unfold State.deliver; split <;> rfl
@[simp] theorem State.busy_deliver (x : Int) : (s.deliver x).busy = s.busy := by unfold State.deliver; split <;> rfl

end Sys2Proof.Machine
end

