-- ==== Sys2Proof/Laws/Memory.lean ====
section
/-! SUPPORT. The laws of memory: a read after a write, the canonical form is kept by every memory operation, equal reads make
equal memories, and an image reads back (20_memory R28 to R30, R35; 70_reset_and_hazards R114). -/

namespace Sys2Proof.Machine

/-! ## The list of cells -/

theorem lookupCell_of_lt {lo hi a : Nat} {cs : List (Nat × Int)} (h : canonicalFrom lo hi cs = true) (ha : a < lo) :
    lookupCell cs a = 0 := by
  induction cs generalizing lo with
  | nil => rfl
  | cons p rest ih =>
    obtain ⟨b, u⟩ := p
    simp only [canonicalFrom, Bool.and_eq_true, decide_eq_true_eq] at h
    rw [lookupCell, if_neg (by omega), ih h.2 (by omega)]

theorem canonicalFrom_mono {lo lo' hi : Nat} {cs : List (Nat × Int)} (h : canonicalFrom lo hi cs = true) (hl : lo' ≤ lo) :
    canonicalFrom lo' hi cs = true := by
  cases cs with
  | nil => rfl
  | cons p rest =>
    simp only [canonicalFrom, Bool.and_eq_true, decide_eq_true_eq] at h ⊢
    exact ⟨⟨⟨by omega, h.1.1.2⟩, h.1.2⟩, h.2⟩

theorem canonicalFrom_grow {lo hi hi' : Nat} {cs : List (Nat × Int)} (h : canonicalFrom lo hi cs = true) (hh : hi ≤ hi') :
    canonicalFrom lo hi' cs = true := by
  induction cs generalizing lo with
  | nil => rfl
  | cons p rest ih =>
    simp only [canonicalFrom, Bool.and_eq_true, decide_eq_true_eq] at h ⊢
    exact ⟨⟨⟨h.1.1.1, by omega⟩, h.1.2⟩, ih h.2⟩

theorem lookupCell_consCell (a : Nat) (v : Int) (rest : List (Nat × Int)) (x : Nat) (h : lookupCell rest a = 0) :
    lookupCell (consCell a v rest) x = if x = a then v else lookupCell rest x := by
  unfold consCell
  split
  · subst_vars; split
    · subst_vars; exact h
    · rfl
  · rfl

theorem canonicalFrom_consCell {lo hi a : Nat} {v : Int} {rest : List (Nat × Int)} (hl : lo ≤ a) (hh : a < hi)
    (h : canonicalFrom (a + 1) hi rest = true) : canonicalFrom lo hi (consCell a v rest) = true := by
  unfold consCell
  split
  · exact canonicalFrom_mono h (by omega)
  · simp only [canonicalFrom, Bool.and_eq_true, decide_eq_true_eq]
    exact ⟨⟨⟨hl, hh⟩, by assumption⟩, h⟩

theorem lookupCell_putCell {lo hi a : Nat} {v : Int} {cs : List (Nat × Int)} (h : canonicalFrom lo hi cs = true) (x : Nat) :
    lookupCell (putCell cs a v) x = if x = a then v else lookupCell cs x := by
  induction cs generalizing lo with
  | nil => exact lookupCell_consCell a v [] x rfl
  | cons p rest ih =>
    obtain ⟨b, u⟩ := p
    have hc := h
    simp only [canonicalFrom, Bool.and_eq_true, decide_eq_true_eq] at h
    unfold putCell
    split
    · exact lookupCell_consCell a v _ x (lookupCell_of_lt (canonicalFrom_mono (lo' := b) (by
        simp only [canonicalFrom, Bool.and_eq_true, decide_eq_true_eq]; exact ⟨⟨⟨Nat.le_refl b, h.1.1.2⟩, h.1.2⟩, h.2⟩)
        (Nat.le_refl b)) (by assumption))
    · split
      · subst_vars
        rw [lookupCell_consCell b v rest x (lookupCell_of_lt h.2 (by omega))]
        simp only [lookupCell]
        split <;> rfl
      · simp only [lookupCell, ih h.2]
        split <;> split <;> first | rfl | omega

theorem canonicalFrom_putCell {lo hi a : Nat} {v : Int} {cs : List (Nat × Int)} (h : canonicalFrom lo hi cs = true)
    (hl : lo ≤ a) (hh : a < hi) : canonicalFrom lo hi (putCell cs a v) = true := by
  induction cs generalizing lo with
  | nil => exact canonicalFrom_consCell hl hh rfl
  | cons p rest ih =>
    obtain ⟨b, u⟩ := p
    simp only [canonicalFrom, Bool.and_eq_true, decide_eq_true_eq] at h
    unfold putCell
    split
    · refine canonicalFrom_consCell hl hh ?_
      simp only [canonicalFrom, Bool.and_eq_true, decide_eq_true_eq]
      exact ⟨⟨⟨by omega, h.1.1.2⟩, h.1.2⟩, h.2⟩
    · split
      · subst_vars; exact canonicalFrom_consCell hl hh h.2
      · simp only [canonicalFrom, Bool.and_eq_true, decide_eq_true_eq]
        exact ⟨⟨⟨h.1.1.1, h.1.1.2⟩, h.1.2⟩, ih h.2 (by omega)⟩

theorem mem_consCell {a : Nat} {v : Int} {rest : List (Nat × Int)} {p : Nat × Int} (h : p ∈ consCell a v rest) :
    p = (a, v) ∨ p ∈ rest := by
  unfold consCell at h
  split at h
  · exact .inr h
  · simpa using h

theorem mem_putCell {cs : List (Nat × Int)} {a : Nat} {v : Int} {p : Nat × Int} (h : p ∈ putCell cs a v) :
    p = (a, v) ∨ p ∈ cs := by
  induction cs with
  | nil => exact mem_consCell h
  | cons q rest ih =>
    unfold putCell at h
    split at h
    · exact mem_consCell h
    · split at h
      · exact (mem_consCell h).imp id (List.mem_cons_of_mem _)
      · rcases List.mem_cons.mp h with h | h
        · exact .inr (h ▸ List.mem_cons_self)
        · exact (ih h).imp id (List.mem_cons_of_mem _)

/-! ## Reading and writing (20_memory R28 to R30) -/

theorem Memory.read_of_valid {m : Memory} {a : Int} (h : m.Valid a) : m.read a = some (lookupCell m.cells a.toNat) :=
  if_pos h

@[simp] theorem Memory.read_eq_none {m : Memory} {a : Int} : m.read a = none ↔ ¬ m.Valid a := by
  unfold Memory.read; split <;> simp_all

theorem Memory.valid_of_read {m : Memory} {a : Int} {v : Int} (h : m.read a = some v) : m.Valid a := by
  by_contra hn
  rw [Memory.read_eq_none.mpr hn] at h
  cases h

@[simp] theorem Memory.len_write (m : Memory) (a : Int) (v : Int) : (m.write a v).len = m.len := by
  unfold Memory.write; split <;> rfl

theorem Memory.read_write_same {m : Memory} {a : Int} (v : Int) (hw : m.wf = true) (h : m.Valid a) :
    (m.write a v).read a = some v := by
  rw [Memory.write, if_pos h, Memory.read_of_valid (m := ⟨m.len, putCell m.cells a.toNat v⟩) h, lookupCell_putCell hw, if_pos rfl]

theorem Memory.read_write_other {m : Memory} {a b : Int} (v : Int) (hw : m.wf = true) (h : b ≠ a) :
    (m.write a v).read b = m.read b := by
  by_cases ha : m.Valid a
  · simp only [Memory.write, if_pos ha, Memory.read]
    by_cases hb : m.Valid b
    · rw [if_pos (show Memory.Valid _ b from hb), if_pos hb, lookupCell_putCell hw, if_neg (by have := ha.1; have := hb.1; omega)]
    · rw [if_neg (show ¬ Memory.Valid _ b from hb), if_neg hb]
  · rw [Memory.write, if_neg ha]

theorem Memory.updatedAt_write {m : Memory} {a : Int} (v : Int) (hw : m.wf = true) (h : m.Valid a) :
    m.UpdatedAt (m.write a v) a v :=
  ⟨m.len_write a v, Memory.read_write_same v hw h, fun _ hb => Memory.read_write_other v hw hb⟩

/-! ## The canonical form -/

theorem Memory.wf_write {m : Memory} (a : Int) (v : Int) (hw : m.wf = true) : (m.write a v).wf = true := by
  unfold Memory.write
  split
  · rename_i h
    have hlt : a.toNat < m.len := by have h0 := h.1; have h1 := h.2; omega
    exact canonicalFrom_putCell hw (Nat.zero_le _) hlt
  · exact hw

theorem Memory.wf_growTo {m : Memory} (n : Nat) (hw : m.wf = true) : (m.growTo n).wf = true :=
  canonicalFrom_grow hw (Nat.le_max_left _ _)

theorem Memory.wf_writeAll {m : Memory} (a : Int) (vs : List Int) (hw : m.wf = true) : (m.writeAll a vs).wf = true := by
  induction vs generalizing m a with
  | nil => exact hw
  | cons v rest ih => exact ih (a + 1) (Memory.wf_write a v hw)

theorem canonicalFrom_cellsOfImage (a : Nat) (img : List Int) :
    canonicalFrom a (a + img.length) (cellsOfImage a img) = true := by
  induction img generalizing a with
  | nil => rfl
  | cons v rest ih =>
    refine canonicalFrom_consCell (Nat.le_refl a) (by simp) ?_
    have := ih (a + 1)
    rwa [show a + 1 + rest.length = a + (v :: rest).length by simp; omega] at this

theorem Memory.wf_ofImage (img : List Int) : (Memory.ofImage img).wf = true := by
  simpa [Memory.wf, Memory.ofImage] using canonicalFrom_cellsOfImage 0 img

theorem Memory.wf_resetState : State.reset.mem.wf = true := rfl

theorem Memory.mem_write {m : Memory} {a : Int} {v : Int} {p : Nat × Int} (h : p ∈ (m.write a v).cells) :
    p.2 = v ∨ p ∈ m.cells := by
  unfold Memory.write at h
  split at h
  · exact (mem_putCell h).imp (fun e => by rw [e]) id
  · exact .inr h

theorem mem_cellsOfImage {a : Nat} {img : List Int} {p : Nat × Int} (h : p ∈ cellsOfImage a img) : p.2 ∈ img := by
  induction img generalizing a with
  | nil => simp [cellsOfImage] at h
  | cons v rest ih =>
    rcases mem_consCell h with h | h
    · simp [h]
    · exact List.mem_cons_of_mem _ (ih h)

/-! ## An image reads back (70_reset_and_hazards R114) -/

theorem lookupCell_cellsOfImage (a : Nat) (img : List Int) (j : Nat) :
    lookupCell (cellsOfImage a img) (a + j) = (img[j]?).getD 0 := by
  induction img generalizing a j with
  | nil => rfl
  | cons v rest ih =>
    have h0 : lookupCell (cellsOfImage (a + 1) rest) a = 0 :=
      lookupCell_of_lt (canonicalFrom_cellsOfImage (a + 1) rest) (by omega)
    rw [cellsOfImage, lookupCell_consCell _ _ _ _ h0]
    cases j with
    | zero => simp
    | succ j => rw [if_neg (by omega), show a + (j + 1) = a + 1 + j by omega, ih]; rfl

theorem Memory.read_ofImage (img : List Int) (j : Nat) : (Memory.ofImage img).read j = img[j]? := by
  by_cases h : j < img.length
  · rw [Memory.read_of_valid ⟨by omega, by simpa [Memory.ofImage] using h⟩]
    have := lookupCell_cellsOfImage 0 img j
    simp only [Nat.zero_add] at this
    simp [Memory.ofImage, this, h]
  · rw [List.getElem?_eq_none (by omega), Memory.read_eq_none]
    simp only [Memory.Valid, Memory.ofImage]
    omega

/-! ## Equal reads make equal memories -/

theorem canonicalFrom_ext {lo hi : Nat} {cs ds : List (Nat × Int)} (hc : canonicalFrom lo hi cs = true)
    (hd : canonicalFrom lo hi ds = true) (h : ∀ a, lookupCell cs a = lookupCell ds a) : cs = ds := by
  induction cs generalizing lo ds with
  | nil =>
    cases ds with
    | nil => rfl
    | cons q rest =>
      obtain ⟨b, u⟩ := q
      simp only [canonicalFrom, Bool.and_eq_true, decide_eq_true_eq] at hd
      have := h b
      simp only [lookupCell, if_true] at this
      exact absurd this.symm hd.1.2
  | cons p rest ih =>
    obtain ⟨a, v⟩ := p
    have hc' := hc
    simp only [canonicalFrom, Bool.and_eq_true, decide_eq_true_eq] at hc
    cases ds with
    | nil =>
      have := h a
      simp only [lookupCell, if_true] at this
      exact absurd this hc.1.2
    | cons q rest' =>
      obtain ⟨b, u⟩ := q
      have hd' := hd
      simp only [canonicalFrom, Bool.and_eq_true, decide_eq_true_eq] at hd
      have hab : a = b := by
        rcases Nat.lt_trichotomy a b with hlt | heq | hgt
        · have h1 := h a
          simp only [lookupCell, if_true, if_neg (Nat.ne_of_lt hlt)] at h1
          rw [lookupCell_of_lt hd.2 (by omega)] at h1
          exact absurd h1 hc.1.2
        · exact heq
        · have h1 := h b
          simp only [lookupCell, if_true, if_neg (Nat.ne_of_lt hgt)] at h1
          rw [lookupCell_of_lt hc.2 (by omega)] at h1
          exact absurd h1.symm hd.1.2
      subst hab
      have hvu := h a
      simp only [lookupCell, if_true] at hvu
      subst hvu
      rw [ih hc.2 hd.2 (fun x => ?_)]
      rcases Nat.lt_or_ge x (a + 1) with hx | hx
      · rw [lookupCell_of_lt hc.2 hx, lookupCell_of_lt hd.2 hx]
      · have := h x
        rwa [lookupCell, lookupCell, if_neg (by omega), if_neg (by omega)] at this

theorem lookupCell_of_ge {lo hi a : Nat} {cs : List (Nat × Int)} (h : canonicalFrom lo hi cs = true) (ha : hi ≤ a) :
    lookupCell cs a = 0 := by
  induction cs generalizing lo with
  | nil => rfl
  | cons p rest ih =>
    simp only [canonicalFrom, Bool.and_eq_true, decide_eq_true_eq] at h
    rw [lookupCell, if_neg (by omega), ih h.2]

theorem Memory.eq_of_read {m m' : Memory} (hw : m.wf = true) (hw' : m'.wf = true) (hl : m.len = m'.len)
    (h : ∀ a : Int, m.read a = m'.read a) : m = m' := by
  obtain ⟨len, cs⟩ := m
  obtain ⟨len', ds⟩ := m'
  cases hl
  refine congrArg _ (canonicalFrom_ext hw hw' fun a => ?_)
  rcases Nat.lt_or_ge a len with ha | ha
  · have hv : (0 : Int) ≤ (a : Int) ∧ (a : Int) < (len : Int) := ⟨by omega, by omega⟩
    have := h a
    rw [Memory.read_of_valid (m := ⟨len, cs⟩) hv, Memory.read_of_valid (m := ⟨len, ds⟩) hv] at this
    simpa using this
  · rw [lookupCell_of_ge hw ha, lookupCell_of_ge hw' ha]

end Sys2Proof.Machine
end

