-- ==== Sys2Proof/Laws/Exec.lean ====
section
/-! SUPPORT. One lemma for each shared operation, saying once everything it can do, and the inversion of `exec`. -/

namespace Sys2Proof.Machine

/-! ## Except -/

@[simp] theorem except_ok_bind {ε α β : Type} (a : α) (f : α → Except ε β) : (Except.ok a >>= f) = f a := rfl

@[simp] theorem except_error_bind {ε α β : Type} (e : ε) (f : α → Except ε β) :
    ((Except.error e : Except ε α) >>= f) = Except.error e := rfl

@[simp] theorem except_pure {ε α : Type} (a : α) : (pure a : Except ε α) = Except.ok a := rfl

@[simp] theorem except_throw {ε α : Type} (e : ε) : (throw e : Except ε α) = Except.error e := rfl

theorem except_bind_eq_ok {ε α β : Type} {x : Except ε α} {f : α → Except ε β} {b : β} :
    (x >>= f) = Except.ok b ↔ ∃ a, x = Except.ok a ∧ f a = Except.ok b := by
  cases x with
  | ok a => simp
  | error e => simp

theorem except_bind_eq_error {ε α β : Type} {x : Except ε α} {f : α → Except ε β} {e : ε} :
    (x >>= f) = Except.error e ↔ x = Except.error e ∨ ∃ a, x = Except.ok a ∧ f a = Except.error e := by
  cases x with
  | ok a => simp
  | error e' => simp

/-! ## The cell range (00_scope R5, R10) -/

theorem one_le_cellLimit (W : Nat) : 1 ≤ cellLimit W := by
  have : 0 < 2 ^ (W - 1) := Nat.two_pow_pos _
  unfold cellLimit; omega

theorem inRange_zero (W : Nat) : inRange W 0 := by
  have := one_le_cellLimit W
  exact ⟨by omega, by omega⟩

theorem inRange_one_of_le {W : Nat} {v : Int} (h : inRange W v) (hv : 1 ≤ v) : inRange W 1 := by
  have := one_le_cellLimit W
  exact ⟨by omega, by have := h.2; omega⟩

theorem wrap_inRange {W : Nat} (hW : 1 ≤ W) (x : Int) : inRange W (wrap W x) := by
  obtain ⟨n, rfl⟩ : ∃ n, W = n + 1 := ⟨W - 1, by omega⟩
  have hp : 0 < 2 ^ n := Nat.two_pow_pos n
  have h1 := Int.le_bmod (x := x) (m := 2 ^ (n + 1)) (Nat.two_pow_pos _)
  have h2 := Int.bmod_lt (x := x) (m := 2 ^ (n + 1)) (Nat.two_pow_pos _)
  unfold inRange wrap cellLimit
  rw [Nat.add_sub_cancel]
  rw [Nat.pow_succ] at h1 h2 ⊢
  constructor <;> omega

theorem wrap_congruent (W : Nat) (x : Int) : ((2 ^ W : Nat) : Int) ∣ x - wrap W x := by
  have h := Int.bmod_emod (x := x) (m := 2 ^ W)
  refine Int.dvd_of_emod_eq_zero ?_
  unfold wrap
  rw [Int.sub_emod, h]
  simp

/-! ## Operands (30_encoding R53, R54) -/

theorem State.memRead_of_read {s : State} {a v : Int} {k : AccessKind} (h : s.mem.read a = some v) : s.memRead a k = .ok v := by
  rw [State.memRead, h]

theorem State.memRead_outside {s : State} {a : Int} {k : AccessKind} (h : ¬ s.mem.Valid a) :
    s.memRead a k = .error (.addressOutOfRange s.pc a k) := by
  rw [State.memRead, Memory.read_eq_none.mpr h]

theorem State.val_of_source {s : State} {m : Mode} {x v : Int} (h : s.source m x = some v) : s.val m x = .ok v := by
  cases m with
  | immediate => simpa [State.source, State.val] using h
  | position =>
    have h' : s.mem.read x = some v := h
    simp [State.val, State.memRead, h']

theorem State.val_of_no_source {s : State} {m : Mode} {x : Int} (h : s.source m x = none) :
    s.val m x = .error (.addressOutOfRange s.pc x .load) := by
  cases m with
  | immediate => simp [State.source] at h
  | position =>
    have h' : s.mem.read x = none := h
    simp [State.val, State.memRead, h']

theorem State.val_eq_ok {s : State} {m : Mode} {x v : Int} : s.val m x = .ok v ↔ s.source m x = some v := by
  cases h : s.source m x with
  | some w => simp [State.val_of_source h]
  | none => simp [State.val_of_no_source h]

theorem State.dst_of_valid {s : State} {x : Int} (h : s.mem.Valid x) : s.dst x = .ok x := if_pos h

theorem State.dst_of_not_valid {s : State} {x : Int} (h : ¬ s.mem.Valid x) :
    s.dst x = .error (.addressOutOfRange s.pc x .store) := if_neg h

theorem State.dst_eq_ok {s : State} {x d : Int} : s.dst x = .ok d ↔ s.mem.Valid x ∧ d = x := by
  by_cases h : s.mem.Valid x
  · rw [State.dst_of_valid h]
    exact ⟨fun e => by cases e; exact ⟨h, rfl⟩, fun e => by rw [e.2]⟩
  · rw [State.dst_of_not_valid h]
    exact ⟨fun e => (by cases e), fun e => absurd e.1 h⟩

/-- The only fault of a source operand. -/
theorem State.val_error {s : State} {m : Mode} {x : Int} {f : Fault} (h : s.val m x = .error f) :
    f = .addressOutOfRange s.pc x .load := by
  cases hs : s.source m x with
  | none => rw [State.val_of_no_source hs] at h; cases h; rfl
  | some v => rw [State.val_of_source hs] at h; cases h

/-- The only fault of a destination operand. -/
theorem State.dst_error {s : State} {x : Int} {f : Fault} (h : s.dst x = .error f) :
    f = .addressOutOfRange s.pc x .store := by
  by_cases hv : s.mem.Valid x
  · rw [State.dst_of_valid hv] at h; cases h
  · rw [State.dst_of_not_valid hv] at h; cases h; rfl

/-! ## The integer law (41_arithmetic R72) -/

theorem State.integerLaw_of_inRange {s : State} {op : ArithOp} {a b r : Int} (h : inRange s.cfg.width r) :
    s.integerLaw op a b r = .ok r := if_pos h

theorem State.integerLaw_fault {s : State} {op : ArithOp} {a b r : Int} (h : ¬ inRange s.cfg.width r)
    (hp : s.cfg.overflowPolicy = .fault) : s.integerLaw op a b r = .error (.arithmeticOverflow s.pc op a b) := by
  rw [State.integerLaw, if_neg h, hp]

theorem State.integerLaw_wrap {s : State} {op : ArithOp} {a b r : Int} (h : ¬ inRange s.cfg.width r)
    (hp : s.cfg.overflowPolicy = .wrap) : s.integerLaw op a b r = .ok (wrap s.cfg.width r) := by
  rw [State.integerLaw, if_neg h, hp]

theorem State.integerLaw_inRange {s : State} {op : ArithOp} {a b r v : Int} (hW : 1 ≤ s.cfg.width)
    (h : s.integerLaw op a b r = .ok v) : inRange s.cfg.width v := by
  unfold State.integerLaw at h
  split at h
  · cases h; assumption
  · split at h
    · cases h
    · cases h; exact wrap_inRange hW r

/-! ## Ending an instruction (40_decode_execute R62, 60_exceptions R105) -/

@[simp] theorem State.complete_ok (s t : State) : s.complete (.ok t) = .next t := rfl

@[simp] theorem State.complete_error (s : State) (f : Fault) : s.complete (.error f) = .next (s.raise f) := rfl

theorem State.complete_eq_next {s t : State} {x : Except Fault State} :
    s.complete x = .next t ↔ x = .ok t ∨ ∃ f, x = .error f ∧ t = s.raise f := by
  cases x with
  | ok u => simp
  | error f => simp [eq_comm]

/-! ## What one instruction can do -/

/-- Everything `exec i s` can answer. -/
inductive Effect (s : State) : Instr → State → Prop where
  /-- It takes a fault (60_exceptions R105). -/
  | fault (i : Instr) (f : Fault) : i ≠ .hlt → Effect s i (s.raise f)
  /-- ADD, MUL, LT, EQ store a value at their destination. -/
  | store (i : Instr) (d v : Int) : i.destination = some d → i.length = 4 → i.operation.arity = 3 → s.mem.Valid d →
      ((1 ≤ s.cfg.width → inRange s.cfg.width v) ∨ v = 0 ∨ v = 1) → Effect s i ((s.memWrite d v).advance 4)
  /-- IN takes what the peer offers. -/
  | receive (d x : Int) : s.mem.Valid d → s.inConn = true → s.peerOffer = some x →
      Effect s (.inp d) (((s.takeOffer.memWrite d x).emit (.input x)).advance 2)
  /-- IN waits for a peer that is connected and does not offer. -/
  | waitInput (d : Int) : s.mem.Valid d → s.inConn = true → s.peerOffer = none → Effect s (.inp d) s
  /-- OUT hands its value to the peer. -/
  | send (m : Mode) (a x : Int) : s.source m a = some x → s.outConn = true → s.peerReady = true →
      Effect s (.out m a) (((s.deliver x).emit (.output x)).advance 2)
  /-- OUT waits for a peer that is connected and does not accept. -/
  | waitOutput (m : Mode) (a x : Int) : s.source m a = some x → s.outConn = true → s.peerReady = false →
      Effect s (.out m a) s
  /-- JT or JF sets the program counter to its target. -/
  | jump (i : Instr) (t : Int) : i.operation.arity = 2 → Effect s i { s with pc := t }
  /-- JT or JF falls through. -/
  | fallThrough (i : Instr) : i.operation.arity = 2 → Effect s i (s.advance 3)
  /-- HLT. -/
  | halt : Effect s .hlt ((({ s with status := .halted } : State).emit .halt).advance 1)

theorem State.condJump_effect {s t : State} {pol : Bool} {m1 m2 : Mode} {a b : Int} {i : Instr} (hi : i.operation.arity = 2)
    (h : s.complete (s.condJump pol m1 m2 a b) = .next t) : Effect s i t := by
  rcases State.complete_eq_next.mp h with h | ⟨f, -, rfl⟩
  · simp only [State.condJump, except_bind_eq_ok] at h
    obtain ⟨p, -, h⟩ := h
    split at h
    · obtain ⟨u, -, h⟩ := except_bind_eq_ok.mp h
      cases h; exact .jump i u hi
    · cases h; exact .fallThrough i hi
  · exact .fault i f (by rintro rfl; simp [Instr.operation, Operation.arity] at hi)

theorem State.store_effect {s t : State} {i : Instr} {c : Int} {e : Int → Int → Except Fault Int} {m1 m2 : Mode} {a b : Int}
    (hd : i.destination = some c) (hl : i.length = 4) (ha : i.operation.arity = 3)
    (he : ∀ x y r, e x y = .ok r → (1 ≤ s.cfg.width → inRange s.cfg.width r) ∨ r = 0 ∨ r = 1)
    (h : s.complete (do
      let x ← s.val m1 a
      let y ← s.val m2 b
      let d ← s.dst c
      let r ← e x y
      return (s.memWrite d r).advance 4) = .next t) : Effect s i t := by
  rcases State.complete_eq_next.mp h with h | ⟨f, -, rfl⟩
  · simp only [except_bind_eq_ok, State.dst_eq_ok] at h
    obtain ⟨x, -, y, -, d, ⟨hv, rfl⟩, r, hr, h⟩ := h
    cases h
    exact .store i _ _ hd hl ha hv (he x y r hr)
  · exact .fault i f (by rintro rfl; cases hd)

theorem b2c_cases (b : Bool) : b2c b = 0 ∨ b2c b = 1 := by cases b <;> simp [b2c]

/-- Whatever `exec` answers with a next state is one of the effects. -/
theorem exec_effect {i : Instr} {s t : State} (h : exec i s = .next t) : Effect s i t := by
  cases i with
  | add m1 m2 a b c =>
    exact State.store_effect (e := fun x y => s.integerLaw .add x y (x + y)) rfl rfl rfl
      (fun x y r hr => .inl fun hW => State.integerLaw_inRange hW hr) h
  | mul m1 m2 a b c =>
    exact State.store_effect (e := fun x y => s.integerLaw .mul x y (x * y)) rfl rfl rfl
      (fun x y r hr => .inl fun hW => State.integerLaw_inRange hW hr) h
  | lt m1 m2 a b c =>
    exact State.store_effect (e := fun x y => .ok (b2c (decide (x < y)))) rfl rfl rfl
      (fun x y r hr => by cases hr; exact .inr (b2c_cases _)) h
  | eq m1 m2 a b c =>
    exact State.store_effect (e := fun x y => .ok (b2c (decide (x = y)))) rfl rfl rfl
      (fun x y r hr => by cases hr; exact .inr (b2c_cases _)) h
  | jt m1 m2 a b => exact State.condJump_effect rfl h
  | jf m1 m2 a b => exact State.condJump_effect rfl h
  | hlt => cases h; exact .halt
  | inp a =>
    replace h : execIn a s = .next t := h
    rcases State.complete_eq_next.mp h with h | ⟨f, -, rfl⟩
    · simp only [except_bind_eq_ok, State.dst_eq_ok] at h
      obtain ⟨d, ⟨hv, rfl⟩, h'⟩ := h
      clear h
      rename' h' => h
      split at h
      · split at h
        · cases h; exact .receive _ _ hv (by assumption) (by assumption)
        · cases h; exact .waitInput _ hv (by assumption) (by assumption)
      · cases h
    · exact .fault _ f (by rintro ⟨⟩)
  | out m1 a =>
    rcases State.complete_eq_next.mp h with h | ⟨f, -, rfl⟩
    · simp only [except_bind_eq_ok, State.val_eq_ok] at h
      obtain ⟨x, hx, h⟩ := h
      split at h
      · split at h
        · cases h; exact .send _ _ _ hx (by assumption) (by assumption)
        · cases h; exact .waitOutput _ _ _ hx (by assumption) (by simpa using ‹¬ s.peerReady = true›)
      · cases h
    · exact .fault _ f (by rintro ⟨⟩)

end Sys2Proof.Machine
end

