-- ==== Sys2Proof/Laws/Decode.lean ====
section
/-! SUPPORT. The parts of the decoder, each said once (30_encoding R42 to R50). -/

namespace Sys2Proof

theorem Mode.digit_le_one (m : Mode) : m.digit ≤ 1 := by cases m <;> simp [Mode.digit]

theorem Mode.digit_injective {m m' : Mode} (h : m.digit = m'.digit) : m = m' := by
  cases m <;> cases m' <;> simp_all [Mode.digit]

theorem Mode.exists_digit {n : Nat} (h : n ≤ 1) : ∃ m : Mode, n = m.digit := by
  rcases (by omega : n = 0 ∨ n = 1) with h | h
  · exact ⟨.position, h⟩
  · exact ⟨.immediate, h⟩

theorem operandMode_eq_ok {v i : Nat} {m : Mode} : operandMode v i = .ok m ↔ digit v (i + 1) = m.digit := by
  unfold operandMode
  split
  · rename_i h; cases m <;> simp [h, Mode.digit]
  · rename_i h; cases m <;> simp [h, Mode.digit]
  · rename_i h0 h1; cases m <;> simp [Mode.digit] <;> omega

theorem operandMode_isOk {v i : Nat} : (∃ m, operandMode v i = .ok m) ↔ digit v (i + 1) ≤ 1 := by
  constructor
  · rintro ⟨m, h⟩
    rw [operandMode_eq_ok] at h
    exact h ▸ m.digit_le_one
  · intro h
    obtain ⟨m, hm⟩ := Mode.exists_digit h
    exact ⟨m, operandMode_eq_ok.mpr hm⟩

theorem decodeF3_eq_ok {v : Nat} {mk : Mode → Mode → Operation} {d : Operation} :
    decodeF3 v mk = .ok d ↔
      ∃ m1 m2, digit v 2 = m1.digit ∧ digit v 3 = m2.digit ∧ digit v 4 ≤ 1 ∧ d = mk m1 m2 := by
  rw [← operandMode_isOk (i := 3)]
  simp only [← operandMode_eq_ok (i := 1), ← operandMode_eq_ok (i := 2)]
  unfold decodeF3
  cases operandMode v 1 <;> cases operandMode v 2 <;> cases operandMode v 3 <;> simp [eq_comm]

theorem decodeF2_eq_ok {v : Nat} {mk : Mode → Mode → Operation} {d : Operation} :
    decodeF2 v mk = .ok d ↔ ∃ m1 m2, digit v 2 = m1.digit ∧ digit v 3 = m2.digit ∧ d = mk m1 m2 := by
  simp only [← operandMode_eq_ok (i := 1), ← operandMode_eq_ok (i := 2)]
  unfold decodeF2
  cases operandMode v 1 <;> cases operandMode v 2 <;> simp [eq_comm]

theorem decodeF1_eq_ok {v : Nat} {mk : Mode → Operation} {d : Operation} :
    decodeF1 v mk = .ok d ↔ ∃ m1, digit v 2 = m1.digit ∧ d = mk m1 := by
  simp only [← operandMode_eq_ok (i := 1)]
  unfold decodeF1
  cases operandMode v 1 <;> simp [eq_comm]

/-- The decoder on a non-negative cell is the match on its selector. -/
theorem decodeOp_nat (n : Nat) : decodeOp (n : Int) =
    match selector n with
    | 1 => decodeF3 n .add
    | 2 => decodeF3 n .mul
    | 3 => decodeF1 n (fun _ => .read)
    | 4 => decodeF1 n .write
    | 5 => decodeF2 n (.condJump true)
    | 6 => decodeF2 n (.condJump false)
    | 7 => decodeF3 n .lessThan
    | 8 => decodeF3 n .equal
    | 99 => .ok .halt
    | op => .error (.unknownOpcode op) := by
  unfold decodeOp
  rw [if_neg (by omega)]
  rfl

theorem decodeOp_of_nonneg {v : Int} (h : 0 ≤ v) : decodeOp v = decodeOp (v.toNat : Int) := by
  rw [Int.toNat_of_nonneg h]

/-- An opcode cell that decodes is at least 1, so the value 1 is a cell wherever it stands. -/
theorem one_le_of_decodeOp {v : Int} {d : Operation} (h : decodeOp v = .ok d) : 1 ≤ v := by
  unfold decodeOp at h
  split at h
  · cases h
  · by_contra hn
    obtain rfl : v = 0 := by omega
    simp [selector] at h

theorem decodeOp_total (v : Int) : (∃ d, decodeOp v = .ok d) ∨ ∃ e, decodeOp v = .error e := by
  cases decodeOp v with
  | ok d => exact .inl ⟨d, rfl⟩
  | error e => exact .inr ⟨e, rfl⟩

end Sys2Proof
end

