-- ==== Sys2Proof/Laws/Step.lean ====
section
/-! SUPPORT. What a step can do, said once: whose turn it is, the core's turn, the host's turn, and the ports. -/

namespace Sys2Proof.Machine

/-! ## Fetch (40_decode_execute R57 to R60) -/

/-- The fetch depends on memory and the program counter alone. -/
theorem State.fetch_congr {s t : State} (hm : t.mem = s.mem) (hp : t.pc = s.pc) : t.fetch = s.fetch := by
  unfold State.fetch State.fetchOperands State.fetch1 State.fetch2 State.fetch3 State.operand State.memRead
  rw [hm, hp]

@[simp] theorem State.fetch_turnTaken (s : State) : s.turnTaken.fetch = s.fetch := State.fetch_congr rfl rfl

@[simp] theorem State.source_turnTaken (s : State) (m : Mode) (x : Int) : s.turnTaken.source m x = s.source m x := rfl

@[simp] theorem State.peerOffer_turnTaken (s : State) : s.turnTaken.peerOffer = s.peerOffer := rfl

@[simp] theorem State.peerReady_turnTaken (s : State) : s.turnTaken.peerReady = s.peerReady := rfl

theorem State.turnTaken_of_no_turns {s : State} (h : s.turns = []) : s.turnTaken = s := by
  unfold State.turnTaken
  rw [h, List.tail_nil, ← h]

theorem State.fetch_of_cell {s : State} {v : Int} {d : Operation} (hv : s.mem.read s.pc = some v) (hd : decodeOp v = .ok d) :
    s.fetch = match s.fetchOperands d with | .ok i => .instr i | .error f => .outside f := by
  unfold State.fetch
  rw [State.memRead_of_read hv]
  cases ho : s.fetchOperands d <;> simp only [hd, ho]

theorem State.fetch_of_failure {s : State} {v : Int} {e : DecodeError} (hv : s.mem.read s.pc = some v)
    (hd : decodeOp v = .error e) : s.fetch = .invalid v := by
  unfold State.fetch
  rw [State.memRead_of_read hv]
  simp only [hd]

theorem State.fetch_outside {s : State} (h : ¬ s.mem.Valid s.pc) :
    s.fetch = .outside (.addressOutOfRange s.pc s.pc .fetch) := by
  unfold State.fetch
  rw [State.memRead_outside h]

/-- What a fetched instruction says of memory: an opcode cell that decodes to it, and its operands in the cells that
follow. -/
theorem State.fetchOperands_eq_ok {s : State} {d : Operation} {i : Instr} (h : s.fetchOperands d = .ok i) :
    i.operation = d ∧ ∀ x ∈ i.operands, ∃ j : Nat, s.mem.read (s.pc + (j : Int)) = some x := by
  have cell : ∀ {j x}, s.operand j = .ok x → s.mem.read (s.pc + (j : Int)) = some x := by
    intro j x hx
    unfold State.operand State.memRead at hx
    split at hx
    · cases hx; assumption
    · cases hx
  cases d with
  | halt => cases h; simp [Instr.operation, Instr.operands]
  | read =>
    obtain ⟨a, ha, h⟩ := except_bind_eq_ok.mp h
    cases h
    exact ⟨rfl, by simp only [Instr.operands, List.mem_singleton, forall_eq]; exact ⟨1, cell ha⟩⟩
  | write m =>
    obtain ⟨a, ha, h⟩ := except_bind_eq_ok.mp h
    cases h
    exact ⟨rfl, by simp only [Instr.operands, List.mem_singleton, forall_eq]; exact ⟨1, cell ha⟩⟩
  | condJump p m1 m2 =>
    cases p <;>
    · obtain ⟨a, ha, h⟩ := except_bind_eq_ok.mp h
      obtain ⟨b, hb, h⟩ := except_bind_eq_ok.mp h
      cases h
      refine ⟨rfl, fun x hx => ?_⟩
      rcases List.mem_cons.mp hx with rfl | hx
      · exact ⟨1, cell ha⟩
      · rw [List.mem_singleton.mp hx]; exact ⟨2, cell hb⟩
  | _ m1 m2 =>
    obtain ⟨a, ha, h⟩ := except_bind_eq_ok.mp h
    obtain ⟨b, hb, h⟩ := except_bind_eq_ok.mp h
    obtain ⟨c, hc, h⟩ := except_bind_eq_ok.mp h
    cases h
    refine ⟨rfl, fun x hx => ?_⟩
    rcases List.mem_cons.mp hx with rfl | hx
    · exact ⟨1, cell ha⟩
    · rcases List.mem_cons.mp hx with rfl | hx
      · exact ⟨2, cell hb⟩
      · rw [List.mem_singleton.mp hx]; exact ⟨3, cell hc⟩

theorem State.fetch_eq_instr {s : State} {i : Instr} (h : s.fetch = .instr i) :
    ∃ v d, s.mem.read s.pc = some v ∧ decodeOp v = .ok d ∧ s.fetchOperands d = .ok i := by
  unfold State.fetch at h
  split at h
  · cases h
  · rename_i v hv
    split at h
    · cases h
    · rename_i d hd
      split at h
      · cases h
        refine ⟨v, d, ?_, hd, by assumption⟩
        unfold State.memRead at hv
        split at hv
        · cases hv; assumption
        · cases hv
      · cases h

/-! ## Whose turn it is (40_decode_execute R68) -/

theorem step_of_core {s : State} (h : s.coreIsNext = true) : step s = coreTurn s.turnTaken := by
  unfold State.coreIsNext at h
  unfold step State.turnTaken
  split at h
  · rename_i e; rw [e]; simp only [List.tail]; rw [← e]
  · rename_i e; rw [e]; rfl
  · cases h

theorem step_of_host {s : State} {act : HostAct} {rest : List Turn} (h : s.turns = .host act :: rest) :
    step s = .next (s.turnTaken.hostTurn act) := by
  unfold step State.turnTaken
  rw [h, List.tail_cons]

theorem step_cases {s t : State} (h : step s = .next t) :
    (s.coreIsNext = true ∧ coreTurn s.turnTaken = .next t) ∨
    ∃ act rest, s.turns = .host act :: rest ∧ t = s.turnTaken.hostTurn act := by
  cases hc : s.coreIsNext with
  | true => exact .inl ⟨rfl, step_of_core hc ▸ h⟩
  | false =>
    unfold State.coreIsNext at hc
    split at hc
    · cases hc
    · cases hc
    · rename_i act rest e
      rw [step_of_host e] at h
      cases h
      exact .inr ⟨act, rest, e, rfl⟩

/-! ## The core's turn -/

theorem coreTurn_cases {s t : State} (h : coreTurn s = .next t) :
    (s.status = .running ∧ engineStep s = .next t) ∨
    (s.status = .halted ∧ s.busy = false ∧ t = s) ∨
    (s.status = .halted ∧ s.busy = true ∧ t = s.stageHalted) ∨
    ∃ f, s.status = .faulted f ∧ s.busy = true ∧ t = s.stageFaulted f := by
  unfold coreTurn at h
  split at h
  · rename_i e; exact .inl ⟨e, h⟩
  · rename_i e; cases hb : s.busy <;> simp_all
  · rename_i f e; cases hb : s.busy <;> simp_all

theorem engineStep_cases {s t : State} (h : engineStep s = .next t) :
    (∃ i, s.fetch = .instr i ∧ exec i s = .next t) ∨
    (∃ v, s.fetch = .invalid v ∧ t = s.decodeFailure v) ∨
    ∃ f, s.fetch = .outside f ∧ t = s.raise f := by
  unfold engineStep at h
  split at h
  · rename_i i e; exact .inl ⟨i, e, h⟩
  · rename_i v e; cases h; exact .inr (.inl ⟨v, e, rfl⟩)
  · rename_i f e; cases h; exact .inr (.inr ⟨f, e, rfl⟩)

theorem step_of_running {s : State} (hc : s.coreIsNext = true) (hr : s.status = .running) :
    step s = engineStep s.turnTaken := by
  rw [step_of_core hc, coreTurn, State.status_turnTaken, hr]

theorem step_of_instr {s : State} {i : Instr} (hc : s.coreIsNext = true) (hr : s.status = .running) (hf : s.fetch = .instr i) :
    step s = exec i s.turnTaken := by
  rw [step_of_running hc hr, engineStep, State.fetch_turnTaken, hf]

theorem step_of_stageHalted {s : State} (hc : s.coreIsNext = true) (hb : s.busy = true) (hs : s.status = .halted) :
    step s = .next s.turnTaken.stageHalted := by
  rw [step_of_core hc, coreTurn, State.status_turnTaken, hs]
  simp [hb]

/-! ## A decode failure (40_decode_execute R59) -/

theorem State.decodeFailure_cases (s : State) (v : Int) :
    s.decodeFailure v = s.raise (.invalidOpcode s.pc v) ∨
    s.decodeFailure v = (s.emit (.decodeError s.pc v)).advance 1 := by
  unfold State.decodeFailure
  split
  · exact .inl rfl
  · exact .inr rfl

/-! ## Waiting and transferring (42_io_channels R75, R78) -/

theorem exec_in_waits {s : State} {a : Int} (hv : s.mem.Valid a) (hc : s.inConn = true) (hp : s.peerOffer = none) :
    exec (.inp a) s = .next s := by
  simp [exec, execIn, State.dst_of_valid hv, hc, hp]

theorem exec_in_takes {s : State} {a x : Int} (hv : s.mem.Valid a) (hc : s.inConn = true) (hp : s.peerOffer = some x) :
    exec (.inp a) s = .next (((s.takeOffer.memWrite a x).emit (.input x)).advance 2) := by
  simp [exec, execIn, State.dst_of_valid hv, hc, hp]

theorem exec_out_waits {s : State} {m : Mode} {a x : Int} (hs : s.source m a = some x) (hc : s.outConn = true)
    (hp : s.peerReady = false) : exec (.out m a) s = .next s := by
  simp [exec, execOut, State.val_of_source hs, hc, hp]

theorem exec_out_sends {s : State} {m : Mode} {a x : Int} (hs : s.source m a = some x) (hc : s.outConn = true)
    (hp : s.peerReady = true) : exec (.out m a) s = .next (((s.deliver x).emit (.output x)).advance 2) := by
  simp [exec, execOut, State.val_of_source hs, hc, hp]

/-! ## An instruction that stores (20_memory R38) -/

theorem State.integerLaw_of_lawResult {s : State} {op : ArithOp} {x y r v : Int} (h : s.LawResult r v) :
    s.integerLaw op x y r = .ok v := by
  rcases h with ⟨h, rfl⟩ | ⟨h, hp, rfl⟩
  · exact State.integerLaw_of_inRange h
  · exact State.integerLaw_wrap h hp

/-- What an instruction that stores `v` at `d` answers: memory with that write, the program counter past the instruction, and
the status and the turns as they were. -/
theorem exec_of_stores {s : State} {d v : Int} {i : Instr} (h : s.Stores d v i) :
    s.mem.Valid d ∧ ∃ t, exec i s = .next t ∧ t.mem = s.mem.write d v ∧ t.status = s.status ∧
      t.pc = s.pc + (i.length : Int) ∧ t.turns = s.turns := by
  cases i with
  | add m1 m2 a b c =>
    obtain ⟨rfl, hv, x, y, hx, hy, hl⟩ := h
    refine ⟨hv, (s.memWrite c v).advance 4, ?_, rfl, rfl, rfl, rfl⟩
    simp [exec, execAdd, State.val_of_source hx, State.val_of_source hy, State.dst_of_valid hv,
      State.integerLaw_of_lawResult hl]
  | mul m1 m2 a b c =>
    obtain ⟨rfl, hv, x, y, hx, hy, hl⟩ := h
    refine ⟨hv, (s.memWrite c v).advance 4, ?_, rfl, rfl, rfl, rfl⟩
    simp [exec, execMul, State.val_of_source hx, State.val_of_source hy, State.dst_of_valid hv,
      State.integerLaw_of_lawResult hl]
  | lt m1 m2 a b c =>
    obtain ⟨rfl, hv, x, y, hx, hy, rfl⟩ := h
    refine ⟨hv, (s.memWrite c (if x < y then 1 else 0)).advance 4, ?_, rfl, rfl, rfl, rfl⟩
    by_cases hxy : x < y <;>
      simp [exec, execLt, State.val_of_source hx, State.val_of_source hy, State.dst_of_valid hv, b2c, hxy]
  | eq m1 m2 a b c =>
    obtain ⟨rfl, hv, x, y, hx, hy, rfl⟩ := h
    refine ⟨hv, (s.memWrite c (if x = y then 1 else 0)).advance 4, ?_, rfl, rfl, rfl, rfl⟩
    by_cases hxy : x = y <;>
      simp [exec, execEq, State.val_of_source hx, State.val_of_source hy, State.dst_of_valid hv, b2c, hxy]
  | inp a =>
    obtain ⟨rfl, hv, hc, hp⟩ := h
    exact ⟨hv, _, exec_in_takes hv hc hp, by simp, by simp, by simp [Instr.length, Instr.operation, Operation.arity], by simp⟩
  | out m a => exact h.elim
  | jt m1 m2 a b => exact h.elim
  | jf m1 m2 a b => exact h.elim
  | hlt => exact h.elim

/-! ## The ports (42_io_channels R80) -/

theorem State.current_eq_some {s : State} {i : Instr} : s.current = some i ↔ s.status = .running ∧ s.fetch = .instr i := by
  unfold State.current
  split <;> simp_all

theorem State.inReady_iff {s : State} :
    s.inReady = true ↔ ∃ a, s.current = some (.inp a) ∧ s.mem.Valid a ∧ s.inConn = true := by
  unfold State.inReady
  cases h : s.current with
  | none => simp
  | some i => cases i <;> simp [receivesAt]

theorem State.outData_eq_some {s : State} {x : Int} :
    s.outData = some x ↔ ∃ m a, s.current = some (.out m a) ∧ s.source m a = some x ∧ s.outConn = true := by
  unfold State.outData
  cases h : s.current with
  | none => simp
  | some i =>
    cases i <;> simp [sendsFrom]
    exact and_comm

/-! ## The host's turn (42_io_channels R82) -/

/-- An action that does not make the machine anew: nothing, an offer, a readiness, a dropped half, or an image on the port. -/
theorem State.hostTurn_plain {s : State} {act : HostAct} (h : act.rebuilds = false) :
    s.hostTurn act = s ∨
    (∃ v, s.hostTurn act = { s with inOffer := some v } ∧ s.inConn = true ∧ s.inOffer = none ∧ s.busy = false ∧
      inRange s.cfg.width v) ∨
    (∃ r, s.hostTurn act = { s with outReady := r }) ∨
    (s.hostTurn act = { s with inConn := false, inOffer := none } ∧ s.busy = false) ∨
    (s.hostTurn act = { s with outConn := false, outReady := false } ∧ s.busy = false) ∨
    (∃ img, s.hostTurn act = { s with img := img } ∧ ∀ v ∈ img, inRange s.cfg.width v) := by
  unfold State.hostTurn
  split
  · rename_i hfit
    cases act with
    | offer v =>
      simp only [State.hostOffer]
      split
      · rename_i hh
        simp only [Bool.and_eq_true, Bool.not_eq_true', Option.isNone_iff_eq_none] at hh
        exact .inr (.inl ⟨v, rfl, hh.1.2, hh.2, hh.1.1, of_decide_eq_true hfit⟩)
      · exact .inl rfl
    | setReady r =>
      simp only [State.hostReady]
      split
      · exact .inr (.inr (.inl ⟨r, rfl⟩))
      · exact .inl rfl
    | dropInbound => simp only [State.hostDropInbound]; cases s.busy <;> simp
    | dropOutbound => simp only [State.hostDropOutbound]; cases s.busy <;> simp
    | setImage img => exact .inr (.inr (.inr (.inr (.inr ⟨img, rfl, of_decide_eq_true hfit⟩))))
    | reset img => cases h
    | start img n ps => cases h
    | powerUp => cases h
  · exact .inl rfl

/-- An action that makes the machine anew: nothing (while busy, or where a value does not fit), a reset, a start, or a
power-up. -/
theorem State.hostTurn_rebuild {s : State} {act : HostAct} (h : act.rebuilds = true) :
    s.hostTurn act = s ∨
    (∃ img, s.hostTurn act = s.resetCore img ∧ s.busy = false ∧ ∀ v ∈ img, inRange s.cfg.width v) ∨
    (∃ img n ps, s.hostTurn act = s.startRun img n ps ∧ s.busy = false ∧ (∀ v ∈ img, inRange s.cfg.width v) ∧
      ∀ v ∈ ps, inRange s.cfg.width v) ∨
    s.hostTurn act = s.powerUp := by
  unfold State.hostTurn
  split
  · rename_i hfit
    cases act with
    | reset img =>
      simp only [State.hostReset]
      cases hb : s.busy
      · exact .inr (.inl ⟨img, rfl, rfl, of_decide_eq_true hfit⟩)
      · exact .inl rfl
    | start img n ps =>
      simp only [State.hostStart]
      cases hb : s.busy
      · have hf := (Bool.and_eq_true _ _).mp hfit
        exact .inr (.inr (.inl ⟨img, n, ps, rfl, rfl, of_decide_eq_true hf.1, of_decide_eq_true hf.2⟩))
      · exact .inl rfl
    | powerUp => exact .inr (.inr (.inr rfl))
    | offer v => cases h
    | setReady r => cases h
    | dropInbound => cases h
    | dropOutbound => cases h
    | setImage img => cases h
  · exact .inl rfl

/-- An action that keeps the arbiter's run: it leaves the arbiter's status, the parameters and the turns as they are, and, while
the arbiter is busy, everything. -/
theorem State.hostTurn_keepsRun {s : State} {act : HostAct} (h : act.keepsRun = true) :
    (s.hostTurn act).astatus = s.astatus ∧ (s.hostTurn act).cfg = s.cfg ∧ (s.hostTurn act).turns = s.turns ∧
      (s.busy = true → s.hostTurn act = s) := by
  unfold State.hostTurn
  split
  · cases act with
    | offer v => simp only [State.hostOffer]; split <;> simp_all
    | setReady r => simp only [State.hostReady]; split <;> simp_all
    | dropInbound => simp only [State.hostDropInbound]; split <;> simp_all
    | dropOutbound => simp only [State.hostDropOutbound]; split <;> simp_all
    | reset img => simp only [State.hostReset]; split <;> simp_all
    | setImage img => cases h
    | start img n ps => cases h
    | powerUp => cases h
  · simp

theorem HostAct.fits_reset {W : Nat} {img : List Int} (h : ∀ v ∈ img, inRange W v) : HostAct.fits W (.reset img) = true :=
  decide_eq_true h

theorem HostAct.fits_start {W n : Nat} {img ps : List Int} (hi : ∀ v ∈ img, inRange W v) (hp : ∀ v ∈ ps, inRange W v) :
    HostAct.fits W (.start img n ps) = true :=
  (Bool.and_eq_true _ _).mpr ⟨decide_eq_true hi, decide_eq_true hp⟩

/-! ## The arbiter (46_pipeline R89) -/

theorem State.busy_iff {s : State} : s.busy = true ↔ s.astatus = .stage := by
  unfold State.busy
  split <;> simp_all

theorem State.nextStage_of_lt {s : State} (h : s.k < s.nStages) :
    s.nextStage = { s.resetCore s.img with astatus := .stage, fed := 0, outs := [] } := if_pos h

theorem State.nextStage_of_ge {s : State} (h : s.nStages ≤ s.k) : s.nextStage = { s with astatus := .done s.carry } :=
  if_neg (by omega)

/-- The end of a stage whose machine has halted: a fault of the arbiter, or the one output as the new carry. -/
theorem State.stageHalted_cases (s : State) :
    (∃ g, s.stageHalted = s.arbiterRaise g) ∨
    ∃ r, 2 ≤ s.fed ∧ s.outs = [r] ∧ s.stageHalted = ({ s with carry := r, k := s.k + 1 } : State).nextStage := by
  unfold State.stageHalted
  split
  · exact .inl ⟨_, rfl⟩
  · split
    · rename_i hf r hr; exact .inr ⟨r, by omega, hr, rfl⟩
    · exact .inl ⟨_, rfl⟩

end Sys2Proof.Machine
end

