-- ==== Sys2Proof/Laws/PerInstr.lean ====
section
/-! SUPPORT. The family EncodedCells, one lemma per constructor of Instr: the encoding has the instruction's length
(30_encoding R46), and each of its cells fits a cell of 12 bits or more when the operands do (00_scope R5). -/

namespace Sys2Proof.Laws.EncodedCells

def Statement (i : Instr) : Prop :=
  (encode i).length = i.length ∧ ∀ W, 12 ≤ W → i.WellFormed W → ∀ x ∈ encode i, inRange W x

theorem limit_le {W : Nat} (h : 12 ≤ W) : 2048 ≤ cellLimit W := by
  have : 2 ^ 11 ≤ 2 ^ (W - 1) := Nat.pow_le_pow_right (by omega) (by omega)
  unfold cellLimit
  omega

/-- No canonical opcode cell is above 1108 (30_encoding R56). -/
theorem opcode_le (d : Operation) : 0 ≤ d.opcode ∧ d.opcode ≤ 1108 := by
  cases d with
  | condJump p m1 m2 => cases p <;> cases m1 <;> cases m2 <;> decide
  | halt => decide
  | read => decide
  | write m => cases m <;> decide
  | _ m1 m2 => cases m1 <;> cases m2 <;> decide

theorem of_length {i : Instr} (h : i.operands.length = i.operation.arity) : Statement i := by
  refine ⟨by simp [encode, Instr.length, h]; omega, fun W hW hi x hx => ?_⟩
  rcases List.mem_cons.mp hx with rfl | hx
  · have h1 := limit_le hW
    have h2 := opcode_le i.operation
    exact ⟨by omega, by omega⟩
  · exact hi x hx

theorem add (m1 m2 : Mode) (a b c : Int) : Statement (.add m1 m2 a b c) := of_length rfl
theorem mul (m1 m2 : Mode) (a b c : Int) : Statement (.mul m1 m2 a b c) := of_length rfl
theorem inp (a : Int) : Statement (.inp a) := of_length rfl
theorem out (m1 : Mode) (a : Int) : Statement (.out m1 a) := of_length rfl
theorem jt (m1 m2 : Mode) (a b : Int) : Statement (.jt m1 m2 a b) := of_length rfl
theorem jf (m1 m2 : Mode) (a b : Int) : Statement (.jf m1 m2 a b) := of_length rfl
theorem lt (m1 m2 : Mode) (a b c : Int) : Statement (.lt m1 m2 a b c) := of_length rfl
theorem eq (m1 m2 : Mode) (a b c : Int) : Statement (.eq m1 m2 a b c) := of_length rfl
theorem hlt : Statement .hlt := of_length rfl

end Sys2Proof.Laws.EncodedCells
end

