-- ==== Sys2Proof/Tests/Slice0.lean ====
section
/-! SUPPORT. Tests: expected results are the vectors of 95_test_vectors.md, the examples inside the rules, or hand
calculation from them. A witness theorem shows that the hypotheses of the obligation it is named after can be met, clause by
clause and at the edges of the ranges. -/

namespace Sys2Proof.Tests

open Sys2Proof.Machine

/-! ## Helpers -/

/-- The standalone machine right after a reset with this image. -/
def machine (img : List Int) : State := State.reset.resetCore img

/-- The same with the two policies `skip` and `wrap`. -/
def lenient (img : List Int) : State :=
  { machine img with cfg := { width := 64, decodePolicy := .skip, overflowPolicy := .wrap } }

/-- The block set right after an accepted start. -/
def pipeline (img phases : List Int) : State := State.reset.startRun img phases.length phases

/-- The next state of a step, where there is one. -/
def after (s : State) : Option State :=
  match step s with
  | .next t => some t
  | .fault _ => none
  | .refused _ => none

/-- The next state of an instruction, where there is one. -/
def afterExec (i : Instr) (s : State) : Option State :=
  match exec i s with
  | .next t => some t
  | .fault _ => none
  | .refused _ => none

/-- One field of the state after a step. -/
def seen {α : Type} (f : State → α) (s : State) : Option α := (after s).map f

/-! ## Well-formed instructions (30_encoding R41, 00_scope R5): an ill-formed term for each check -/

theorem test_wellFormed_add : (Instr.add .position .immediate 127 (-128) 0).WellFormed 8 := by decide
theorem test_illFormed_first : ¬ (Instr.add .position .position 128 0 0).WellFormed 8 := by decide
theorem test_illFormed_second : ¬ (Instr.jt .immediate .immediate 0 (-129)).WellFormed 8 := by decide
theorem test_illFormed_third : ¬ (Instr.eq .position .position 0 0 128).WellFormed 8 := by decide
theorem test_illFormed_in : ¬ (Instr.inp (-129)).WellFormed 8 := by decide
theorem test_wellFormed_hlt : Instr.hlt.WellFormed 1 := by decide

/-! ## Decoding (30_encoding R42 to R49; vectors of 95_test_vectors 2.1): each word written out digit by digit -/

/-- `01` selects ADD, no mode digit written: [9], [10], [3] (R45, vector E1). -/
theorem test_decode_add : decodeCells [1, 9, 10, 3] = .ok (.add .position .position 9 10 3, []) := by decide
/-- `10` `02`: thousands 1, hundreds 0 (R42, vector E2). -/
theorem test_decode_mul : decodeCells [1002, 4, 3, 4, 33] = .ok (.mul .position .immediate 4 3 4, [33]) := by decide
/-- `103`: the destination digit 1 is accepted and ignored (R49). -/
theorem test_decode_in : decodeCells [103, 3, 99] = .ok (.inp 3, [99]) := by decide
/-- `104`: hundreds 1; `1104` has one digit too many (R47). -/
theorem test_decode_out :
    decodeCells [104, -42] = .ok (.out .immediate (-42), []) ∧ decodeOp 1104 = .ok (.write .immediate) := by decide
/-- `1105`: both Immediate (vector 2.1). -/
theorem test_decode_jt : decodeCells [1105, 1, 9] = .ok (.jt .immediate .immediate 1 9, []) := by decide
/-- `6`: both Position (vector E9); `106`: hundreds 1, the predicate Immediate. -/
theorem test_decode_jf :
    decodeCells [6, 12, 15] = .ok (.jf .position .position 12 15, []) ∧
    decodeOp 106 = .ok (.condJump false .immediate .position) := by decide
/-- `107`: the first operand Immediate (vector E11). -/
theorem test_decode_lt : decodeCells [107, 8, 21, 20] = .ok (.lt .immediate .position 8 21 20, []) := by decide
/-- `1008`: the second operand Immediate (vector E11). -/
theorem test_decode_eq : decodeCells [1008, 21, 8, 20] = .ok (.eq .position .immediate 21 8 20, []) := by decide
/-- `99`, and `11199` with every digit beyond the arity (R47). -/
theorem test_decode_hlt : decodeCells [99] = .ok (.hlt, []) ∧ decodeCells [11199] = .ok (.hlt, []) := by decide

/-- Rejections, each by its name (R44, R45, R48, R49, R41). -/
theorem test_decode_rejects :
    decodeOp (-1) = .error (.negative (-1)) ∧ decodeOp 0 = .error (.unknownOpcode 0) ∧
    decodeOp 12345 = .error (.unknownOpcode 45) ∧ decodeOp 204 = .error (.badMode 1 2) ∧
    decodeOp 2105 = .error (.badMode 2 2) ∧ decodeOp 20008 = .error (.badMode 3 2) ∧
    decodeOp 203 = .error (.badMode 1 2) ∧ decodeCells [1, 0, 0] = .error .truncated := by decide

/-- The examples of R47, R49 and vector 2.1. -/
theorem test_decode_ignored_digits :
    decodeOp 100001 = .ok (.add .position .position) ∧ decodeOp 10001 = .ok (.add .position .position) ∧
    decodeOp 11101 = .ok (.add .immediate .immediate) ∧ decodeOp 199 = .ok .halt ∧ decodeOp 1099 = .ok .halt := by decide

/-- The encodings R56 writes out. -/
theorem test_encode :
    encode (.mul .position .immediate 4 3 4) = [1002, 4, 3, 4] ∧
    encode (.add .immediate .position (-1) 20 20) = [101, -1, 20, 20] ∧
    encode (.jt .immediate .immediate 1 2) = [1105, 1, 2] ∧ encode (.out .immediate 999) = [104, 999] ∧
    encode .hlt = [99] := by decide

/-- The notation R56 writes out. -/
theorem test_text :
    (Instr.mul .position .immediate 4 3 4).text = "MUL [4], #3, [4]" ∧
    (Instr.add .immediate .position (-1) 20 20).text = "ADD #-1, [20], [20]" := by decide

/-- The table's word of OUT, one byte wide, its operand cell of zeros; a word of two cells, the second `-1`. -/
theorem test_table_word :
    decodeTableWord 8 4 = some (.out .position 0) ∧
    decodeTableWord 128 (4 + 2 ^ 64 * (2 ^ 64 - 1)) = some (.out .position (-1)) ∧ decodeTableWord 8 0 = none := by decide

/-! ## One step of each instruction -/

/-- Vector E1, step 1: 30 + 40 to address 3. -/
theorem test_add_step :
    seen (fun t => (t.mem.read 3, t.pc)) (machine [1, 9, 10, 3, 2, 3, 11, 0, 99, 30, 40, 50]) = some (some 70, 4) := by decide
/-- Vector 2.2: both sources and the destination are the same cell. -/
theorem test_add_alias : seen (fun t => t.mem.read 5) (machine [1, 5, 5, 5, 99, 21]) = some (some 42) := by decide
/-- Vector E2: 33 times 3 to address 4, which was 33. -/
theorem test_mul_step : seen (fun t => (t.mem.read 4, t.pc)) (machine [1002, 4, 3, 4, 33]) = some (some 99, 4) := by decide
/-- Vector 2.2: negative times negative. -/
theorem test_mul_signs : seen (fun t => t.mem.read 5) (machine [1102, -3, -4, 5, 99, 0]) = some (some 12) := by decide
/-- Vector 2.3: the four overflows, fault and wrap. -/
theorem test_overflow_fault :
    seen (fun t => (t.status, t.pc)) (machine [1101, 2 ^ 63 - 1, 1, 5, 99, 0]) =
      some (.faulted (.arithmeticOverflow 0 .add (2 ^ 63 - 1) 1), 0) ∧
    seen (fun t => t.status) (machine [1102, -2 ^ 63, -1, 5, 99, 0]) =
      some (.faulted (.arithmeticOverflow 0 .mul (-2 ^ 63) (-1))) := by decide
theorem test_overflow_wrap :
    seen (fun t => t.mem.read 5) (lenient [1101, 2 ^ 63 - 1, 1, 5, 99, 0]) = some (some (-2 ^ 63)) ∧
    seen (fun t => t.mem.read 5) (lenient [1101, -2 ^ 63, -1, 5, 99, 0]) = some (some (2 ^ 63 - 1)) ∧
    seen (fun t => t.mem.read 5) (lenient [1102, 2 ^ 62, 2, 5, 99, 0]) = some (some (-2 ^ 63)) ∧
    seen (fun t => t.mem.read 5) (lenient [1102, -2 ^ 63, -1, 5, 99, 0]) = some (some (-2 ^ 63)) := by decide
/-- Vector 2.6: the offered 42 to address 3, and the offer is gone. -/
theorem test_in_step :
    seen (fun t => (t.mem.read 3, t.pc, t.trace, t.inOffer)) { machine [103, 3, 99, 0] with inOffer := some 42 } =
      some (some 42, 2, [.input 42], none) := by decide
/-- Vector 2.6: the destination is checked before the handshake, so no value is taken. -/
theorem test_in_checks_first :
    seen (fun t => (t.status, t.inOffer)) { machine [3, 10, 99] with inOffer := some 1 } =
      some (.faulted (.addressOutOfRange 0 10 .store), some 1) := by decide
/-- Vector 2.6: OUT of an Immediate to a ready peer. -/
theorem test_out_step :
    seen (fun t => (t.trace, t.pc)) { machine [104, -42, 99] with outReady := true } = some ([.output (-42)], 2) := by decide
/-- Vector 2.6: a peer that is gone. -/
theorem test_out_disconnected :
    seen (fun t => t.status) { machine [104, 5, 99] with outConn := false } =
      some (.faulted (.channelDisconnected 0 .outbound)) := by decide
/-- Vectors 2.5: any predicate but 0 takes the jump; a Position target is read. -/
theorem test_jt_taken :
    seen (fun t => t.pc) (machine [1105, -1, 4, 99, 99]) = some 4 ∧
    seen (fun t => t.pc) (machine [5, 5, 6, 99, 99, 1, 3]) = some 3 := by decide
/-- Vectors 2.5: a target out of range is not read unless the jump is taken. -/
theorem test_jt_target :
    seen (fun t => (t.pc, t.status)) (machine [5, 5, 99, 99, 99, 0]) = some (3, .running) ∧
    seen (fun t => (t.pc, t.status)) (machine [5, 5, 99, 99, 99, 1]) =
      some (0, .faulted (.addressOutOfRange 0 99 .load)) := by decide
/-- Vectors 2.5: JF. -/
theorem test_jf_step :
    seen (fun t => t.pc) (machine [1106, 0, 4, 99, 99]) = some 4 ∧
    seen (fun t => t.pc) (machine [1106, 7, 4, 99, 99]) = some 3 := by decide
/-- Vector 2.5: a negative target is stored, and faults at the next fetch. -/
theorem test_jump_negative :
    seen (fun t => t.pc) (machine [1105, 1, -5, 99]) = some (-5) ∧
    seen (fun t => t.status) { machine [1105, 1, -5, 99] with pc := -5 } =
      some (.faulted (.addressOutOfRange (-5) (-5) .fetch)) := by decide
/-- Vectors 2.4: the comparison is signed, and equal operands are not less. -/
theorem test_lt_step :
    seen (fun t => t.mem.read 5) (machine [1107, -1, 0, 5, 99, 9]) = some (some 1) ∧
    seen (fun t => t.mem.read 5) (machine [1107, 4, 4, 5, 99, 9]) = some (some 0) := by decide
/-- Vectors 2.4: two cells of equal value; the 1 over the instruction's own opcode cell. -/
theorem test_eq_step :
    seen (fun t => t.mem.read 7) (machine [8, 5, 6, 7, 99, 3, 3, 9]) = some (some 1) ∧
    seen (fun t => t.mem.read 0) (machine [1108, -2, -2, 0, 99]) = some (some 1) := by decide
/-- Vector 2.7, and a further step is a no-op. -/
theorem test_hlt_step :
    seen (fun t => (t.status, t.pc, t.trace)) (machine [199, 5]) = some (.halted, 1, [.halt]) ∧
    seen (fun t => t.pc) { machine [99] with status := .halted, pc := 1 } = some 1 := by decide

/-! ## Faults, decode failure, blocking (95_test_vectors 2.6, 2.8, 2.9) -/

theorem test_decode_failure :
    seen (fun t => (t.status, t.pc)) (machine [201, 0, 0, 0, 99]) = some (.faulted (.invalidOpcode 0 201), 0) ∧
    seen (fun t => (t.status, t.pc, t.trace)) (lenient [98]) = some (.running, 1, [.decodeError 0 98]) := by decide
theorem test_range_faults :
    seen (fun t => t.status) (machine []) = some (.faulted (.addressOutOfRange 0 0 .fetch)) ∧
    seen (fun t => t.status) (machine [1, 0, 0]) = some (.faulted (.addressOutOfRange 0 3 .operand)) ∧
    seen (fun t => t.status) (machine [1, -1, 0, 100, 99]) = some (.faulted (.addressOutOfRange 0 (-1) .load)) ∧
    seen (fun t => t.status) (machine [1, 0, 50, 0, 99]) = some (.faulted (.addressOutOfRange 0 50 .load)) ∧
    seen (fun t => t.status) (machine [1, 0, 0, 100, 99]) = some (.faulted (.addressOutOfRange 0 100 .store)) := by decide
theorem test_blocked_input : seen (fun t => decide (t = machine [3, 3, 99, 0])) (machine [3, 3, 99, 0]) = some true := by decide
theorem test_faulted_no_step : after { machine [99] with status := .faulted (.invalidOpcode 0 98) } = none := by decide

/-- Vector E2 as a whole run of two steps: address 4 holds 99, which is then fetched; the end `pc` is 5. -/
theorem test_run_of_two_steps :
    ∃ t, RunsTo (machine [1002, 4, 3, 4, 33]) t ∧ t.EndedWell ∧ t.mem.read 4 = some 99 ∧ t.pc = 5 :=
  ⟨_, .step rfl rfl (.step rfl rfl (.stop _ (by decide))), rfl, rfl, rfl⟩

/-! ## The host and the arbiter (95_test_vectors 2.10) -/

theorem test_start :
    seen (fun t => t.astatus) { State.reset with turns := [.host (.start [99] 3 [1, 2])] } =
      some (.afaulted (.pipelineArity 3 2)) ∧
    seen (fun t => t.astatus) { State.reset with turns := [.host (.start [99] 0 [])] } = some (.done 0) := by decide
theorem test_feeder :
    seen (fun t => (t.mem.read 0, t.fed)) (pipeline [3, 0, 104, 7, 3, 0, 99] [1, 2]) = some (some 1, 1) := by decide
/-- 46_pipeline R100: an image put on the port during a stage leaves the stage's memory, and the next stage's reset reads it. -/
theorem test_image_port :
    seen (fun t => (t.mem.read 0, t.img)) { pipeline [99] [1, 2] with turns := [.host (.setImage [98, 97])] } =
      some (some 99, [98, 97]) ∧
    seen (fun t => (t.k, t.mem.len, t.mem.read 0))
      { pipeline [99] [1, 2] with status := .halted, fed := 2, outs := [7], img := [98, 97] } = some (1, 2, some 98) := by
  decide
/-- A value that does not fit a cell is no offer. -/
theorem test_offer_must_fit :
    seen (fun t => t.inOffer) { machine [99] with turns := [.host (.offer (2 ^ 63))] } = some none ∧
    seen (fun t => t.inOffer) { machine [99] with turns := [.host (.offer (2 ^ 63 - 1))] } = some (some (2 ^ 63 - 1)) := by
  decide
/-- The ports of 60_exceptions R102, 42_io_channels R80 and 46_pipeline R100. -/
theorem test_ports :
    State.afaultCode { machine [] with astatus := .afaulted (.stageUnconsumedInput 0 1) } = some 18 ∧
    State.result { machine [] with astatus := .done 7 } = some 7 ∧
    State.faultCode { machine [] with status := .faulted (.channelDisconnected 0 .inbound) } = some 3 ∧
    (machine [3, 3, 99, 0]).inReady = true ∧ (machine [3, 4, 99, 0]).inReady = false ∧
    (machine [4, 2, 99]).outData = some 99 ∧ (machine [4, 3, 99]).outValid = false := by decide
/-- `withFetchWord` places the word of HLT at the program counter, and the next step runs it. -/
theorem test_fetch_word :
    seen (fun t => t.status) (State.reset.withFetchWord 8 99) = some .halted ∧
    (State.reset.withFetchWord 8 99).fetch = .instr .hlt := by decide

/-! ## Witnesses: the hypotheses of each obligation are met, clause by clause -/

theorem witness_DecoderAcceptsExactly :
    (0 ≤ (11101 : Int) ∧ selector 11101 = (Operation.add .immediate .immediate).selector ∧ digit 11101 2 = 1 ∧
      digit 11101 3 = 1 ∧ digit 11101 4 = 1) ∧
    decodeOp 11101 = .ok (.add .immediate .immediate) := by decide
theorem witness_OpcodeMap :
    selector 0 ∉ [1, 2, 3, 4, 5, 6, 7, 8, 99] ∧ selector 9 ∉ [1, 2, 3, 4, 5, 6, 7, 8, 99] ∧
    selector 98 ∉ [1, 2, 3, 4, 5, 6, 7, 8, 99] ∧ (0 : Int) ≤ 0 := by decide
theorem witness_NegativeCellIsFailure : (-1 : Int) < 0 := by decide
theorem witness_HighDigitsIgnored :
    (decodeOp (1 : Nat) = .ok (.add .position .position) ∧ 900001 % 10 ^ (2 + 3) = 1 % 10 ^ (2 + 3)) ∧
    (decodeOp (99 : Nat) = .ok .halt ∧ 11199 % 10 ^ (2 + 0) = 99 % 10 ^ (2 + 0)) := by decide
theorem witness_SourceDigitTwoToNineFails :
    (selector 204 = (Operation.write .position).selector ∧ (Operation.write .position).mode1.isSome = true ∧ 2 ≤ digit 204 2) ∧
    (selector 9105 = (Operation.condJump true .position .position).selector ∧
      (Operation.condJump true .position .position).mode2.isSome = true ∧ 2 ≤ digit 9105 3) := by decide
theorem witness_DestinationDigitIgnored :
    (selector 1 = (Operation.add .position .position).selector ∧
      (Operation.add .position .position).destinationOperand = some 3 ∧ digit 1 (3 + 1) = 0) ∧
    (selector 203 = Operation.read.selector ∧ Operation.read.destinationOperand = some 1 ∧ 2 ≤ digit 203 (1 + 1)) := by decide
theorem witness_LengthRule :
    decodeOp 99 = .ok .halt ∧ decodeOp 1 = .ok (.add .position .position) ∧ decodeOp 0 = .error (.unknownOpcode 0) := by decide
theorem witness_DecoderPortFields :
    decodeOp 101 = .ok (.add .immediate .position) ∧ decodeOp 1002 = .ok (.mul .position .immediate) ∧
    decodeOp 3 = .ok .read ∧ decodeOp 104 = .ok (.write .immediate) ∧
    decodeOp 1105 = .ok (.condJump true .immediate .immediate) ∧ decodeOp 6 = .ok (.condJump false .position .position) ∧
    decodeOp 107 = .ok (.lessThan .immediate .position) ∧ decodeOp 8 = .ok (.equal .position .position) ∧
    decodeOp 99 = .ok .halt := by decide
theorem witness_WrapIsTheCongruentCell :
    1 ≤ 1 ∧ inRange 1 (-1) ∧ ((2 ^ 1 : Nat) : Int) ∣ 1 - (-1) ∧ (-1 : Int) = wrap 1 1 := by decide

/-- No first source; no second source; destination `L`; overflow under each policy; the greatest sum in range. -/
theorem witness_AddFollowsItsRule :
    (machine [1, 5, 0, 0, 99]).source .position 5 = none ∧
    (machine [101, 5, -1, 0, 99]).source .immediate 5 = some 5 ∧ (machine [101, 5, -1, 0, 99]).source .position (-1) = none ∧
    ¬ (machine [1101, 1, 1, 5, 99]).mem.Valid 5 ∧
    (machine [1101, 1, 2 ^ 63 - 1, 4, 99]).mem.wf = true ∧ (machine [1101, 1, 2 ^ 63 - 1, 4, 99]).mem.Valid 4 ∧
    ¬ inRange (machine [99]).cfg.width (1 + (2 ^ 63 - 1)) ∧ (machine [99]).cfg.overflowPolicy = .fault ∧
    (lenient [1101, 1, 2 ^ 63 - 1, 4, 99]).mem.wf = true ∧ (lenient [1101, 1, 2 ^ 63 - 1, 4, 99]).mem.Valid 4 ∧
    ¬ inRange (lenient [99]).cfg.width (1 + (2 ^ 63 - 1)) ∧ (lenient [99]).cfg.overflowPolicy = .wrap ∧
    inRange (machine [99]).cfg.width (1 + (2 ^ 63 - 2)) := by decide
theorem witness_MulFollowsItsRule :
    (machine [2, -1, 0, 0, 99]).source .position (-1) = none ∧
    (machine [102, 5, 5, 0, 99]).source .immediate 5 = some 5 ∧ (machine [102, 5, 5, 0, 99]).source .position 5 = none ∧
    ¬ (machine [1102, 1, 1, -1, 99]).mem.Valid (-1) ∧
    (machine [1102, -1, -2 ^ 63, 0, 99]).mem.wf = true ∧ (machine [1102, -1, -2 ^ 63, 0, 99]).mem.Valid 0 ∧
    ¬ inRange (machine [99]).cfg.width (-1 * -2 ^ 63) ∧ (machine [99]).cfg.overflowPolicy = .fault ∧
    (lenient [1102, -1, -2 ^ 63, 0, 99]).mem.wf = true ∧ (lenient [1102, -1, -2 ^ 63, 0, 99]).mem.Valid 0 ∧
    ¬ inRange (lenient [99]).cfg.width (-1 * -2 ^ 63) ∧ (lenient [99]).cfg.overflowPolicy = .wrap ∧
    inRange (machine [99]).cfg.width (1 * -2 ^ 63) := by decide
theorem witness_LtFollowsItsRule :
    (machine [7, 5, 0, 0, 99]).source .position 5 = none ∧
    (machine [7, 4, 5, 0, 99]).source .position 4 = some 99 ∧ (machine [7, 4, 5, 0, 99]).source .position 5 = none ∧
    (machine [7, 4, 0, 5, 99]).source .position 0 = some 7 ∧ ¬ (machine [7, 4, 0, 5, 99]).mem.Valid 5 ∧
    (machine [7, 4, 0, 4, 99]).mem.wf = true ∧ (machine [7, 4, 0, 4, 99]).mem.Valid 4 := by decide
theorem witness_EqFollowsItsRule :
    (machine [8, -1, 0, 0, 99]).source .position (-1) = none ∧
    (machine [8, 4, -1, 0, 99]).source .position 4 = some 99 ∧ (machine [8, 4, -1, 0, 99]).source .position (-1) = none ∧
    (machine [8, 4, 0, -1, 99]).source .position 0 = some 8 ∧ ¬ (machine [8, 4, 0, -1, 99]).mem.Valid (-1) ∧
    (machine [8, 4, 0, 0, 99]).mem.wf = true ∧ (machine [8, 4, 0, 0, 99]).mem.Valid 0 := by decide
/-- Destination `L`; the last cell with the peer gone, silent, and offering, the host and the feeder. -/
theorem witness_InFollowsItsRule :
    ¬ (machine [3, 3, 99]).mem.Valid 3 ∧ (machine [3, 2, 99]).mem.Valid 2 ∧
    State.inConn { machine [3, 2, 99] with inConn := false } = false ∧
    (machine [3, 2, 99]).inConn = true ∧ (machine [3, 2, 99]).peerOffer = none ∧ (machine [3, 2, 99]).mem.wf = true ∧
    State.peerOffer { machine [3, 2, 99] with inOffer := some (-7) } = some (-7) ∧
    (pipeline [3, 2, 99] [4]).peerOffer = some 4 := by decide
theorem witness_OutFollowsItsRule :
    (machine [4, 3, 99]).source .position 3 = none ∧
    (machine [4, 2, 99]).source .position 2 = some 99 ∧
    State.outConn { machine [4, 2, 99] with outConn := false } = false ∧
    (machine [4, 2, 99]).outConn = true ∧ (machine [4, 2, 99]).peerReady = false ∧
    State.peerReady { machine [4, 2, 99] with outReady := true } = true ∧ (pipeline [4, 2, 99] [4]).peerReady = true := by decide
/-- No predicate; predicate 0; predicates 1 and -1 with the target absent and present. -/
theorem witness_JtFollowsItsRule :
    (machine [5, 3, 0]).source .position 3 = none ∧ (machine [1105, 0, 9]).source .immediate 0 = some 0 ∧
    (machine [105, -1, 3]).source .immediate (-1) = some (-1) ∧ (-1 : Int) ≠ 0 ∧
    (machine [105, -1, 3]).source .position 3 = none ∧ (machine [105, -1, 2]).source .position 2 = some 2 := by decide
theorem witness_JfFollowsItsRule :
    (machine [6, -1, 0]).source .position (-1) = none ∧ (machine [1106, 1, 9]).source .immediate 1 = some 1 ∧
    (1 : Int) ≠ 0 ∧ (machine [106, 0, 3]).source .immediate 0 = some 0 ∧ (machine [106, 0, 3]).source .position 3 = none ∧
    (machine [106, 0, 2]).source .position 2 = some 2 := by decide
/-- The clause on a further step. -/
theorem witness_HltFollowsItsRule :
    let t : State := { machine [99] with status := .halted, trace := [.halt], pc := 1 }
    t.busy = false ∧ t.turns = [] := by decide

theorem witness_OverflowOnlyFromAddAndMul :
    ∃ t, (machine [99]).status = .running ∧ exec (.add .immediate .immediate (2 ^ 63 - 1) 1 0) (machine [99]) = .next t ∧
      t.status = .faulted (.arithmeticOverflow 0 .add (2 ^ 63 - 1) 1) :=
  ⟨_, rfl, rfl, by decide⟩
/-- A step that faults; a Faulted machine; one that is not. -/
theorem witness_FaultLeavesAllElse :
    (∃ t, (machine [3, 0, 99]).status = .running ∧ exec (.inp 3) (machine [3, 0, 99]) = .next t ∧
      t.status = .faulted (.addressOutOfRange 0 3 .store)) ∧
    State.status { machine [99] with status := .faulted (.invalidOpcode 0 98) } = .faulted (.invalidOpcode 0 98) ∧
    (∀ f, State.status { machine [99] with status := .halted } ≠ .faulted f) :=
  ⟨⟨_, rfl, rfl, by decide⟩, rfl, nofun⟩
theorem witness_OnlyDestinationCellChanges :
    ∃ t, (machine [1107, 1, 2, 3]).mem.wf = true ∧ exec (.lt .immediate .immediate 1 2 3) (machine [1107, 1, 2, 3]) = .next t ∧
      (Instr.lt .immediate .immediate 1 2 3).destination ≠ some 2 :=
  ⟨_, by decide, rfl, by decide⟩
theorem witness_InstructionFrame :
    (∃ t, exec (.out .immediate 5) (machine [104, 5]) = .next t) ∧ (∀ a, Instr.out .immediate 5 ≠ .inp a) ∧
    (∃ t, exec (.inp 0) (machine [3, 0]) = .next t) ∧ (∀ m a, Instr.inp 0 ≠ .out m a) :=
  ⟨⟨_, rfl⟩, nofun, ⟨_, rfl⟩, nofun⟩
theorem witness_OnlyHltHalts :
    ∃ t, (machine [99]).status = .running ∧ exec .hlt (machine [99]) = .next t ∧ t.status = .halted :=
  ⟨_, rfl, rfl, rfl⟩
/-- An instruction that completes; one that waits; a jump that is taken. -/
theorem witness_PcAfterInstruction :
    (∃ t, exec .hlt (machine [99]) = .next t ∧ ∀ f, t.status ≠ .faulted f) ∧
    (∃ t, exec (.inp 0) (machine [3, 0]) = .next t ∧ ∀ f, t.status ≠ .faulted f) ∧
    (∃ t, exec (.jt .immediate .immediate 1 (-5)) (machine [1105, 1, -5]) = .next t ∧ ∀ f, t.status ≠ .faulted f) :=
  ⟨⟨_, rfl, nofun⟩, ⟨_, rfl, nofun⟩, ⟨_, rfl, nofun⟩⟩

theorem witness_StepRunsDecodedInstruction :
    (machine [104, 7, 99]).status = .running ∧ (machine [104, 7, 99]).coreIsNext = true ∧
    decodeCells [104, 7] = .ok (.out .immediate 7, []) ∧
    (machine [104, 7, 99]).mem.read (0 + ((0 : Nat) : Int)) = some 104 ∧
    (machine [104, 7, 99]).mem.read (0 + ((1 : Nat) : Int)) = some 7 := by decide
/-- Each storing instruction, with its destination in the next instruction: its opcode cell, made HLT or a decode failure, or an
operand cell of it; the wrapped sum; the host's offer and the feeder's. -/
theorem witness_StoredCellIsFetchedNext :
    (let s := machine [1101, 99, 0, 4, 0];
      s.status = .running ∧ s.coreIsNext = true ∧ s.mem.wf = true ∧
      decodeCells [1101, 99, 0, 4] = .ok (.add .immediate .immediate 99 0 4, []) ∧
      (s.mem.read 0, s.mem.read 1, s.mem.read 2, s.mem.read 3) = (some 1101, some 99, some 0, some 4) ∧
      s.Stores 4 99 (.add .immediate .immediate 99 0 4) ∧ decodeCells [99] = .ok (.hlt, [])) ∧
    (lenient [1101, 1, 2 ^ 63 - 1, 4, 99]).Stores 4 (-2 ^ 63) (.add .immediate .immediate 1 (2 ^ 63 - 1) 4) ∧
    decodeOp (-2 ^ 63) = .error (.negative (-2 ^ 63)) ∧
    (machine [1102, -1, 3, 4, 99]).Stores 4 (-3) (.mul .immediate .immediate (-1) 3 4) ∧
    decodeOp (-3) = .error (.negative (-3)) ∧
    (machine [1107, 1, 2, 5, 104, 7]).Stores 5 1 (.lt .immediate .immediate 1 2 5) ∧
    decodeCells [104, 1] = .ok (.out .immediate 1, []) ∧ (machine [1107, 1, 2, 5, 104, 7]).mem.read 4 = some 104 ∧
    (machine [1108, 1, 2, 4, 1]).Stores 4 0 (.eq .immediate .immediate 1 2 4) ∧ decodeOp 0 = .error (.unknownOpcode 0) ∧
    State.Stores { machine [3, 2, 1] with inOffer := some 199 } 2 199 (.inp 2) ∧ decodeCells [199] = .ok (.hlt, []) ∧
    (pipeline [3, 2, 1] [4]).Stores 2 4 (.inp 2) ∧ decodeOp 4 = .ok (.write .position) :=
  ⟨⟨rfl, rfl, by decide, by decide, by decide, ⟨rfl, by decide, _, _, rfl, rfl, by decide⟩, by decide⟩,
    ⟨rfl, by decide, _, _, rfl, rfl, by decide⟩, by decide, ⟨rfl, by decide, _, _, rfl, rfl, by decide⟩, by decide,
    ⟨rfl, by decide, _, _, rfl, rfl, by decide⟩, by decide, by decide, ⟨rfl, by decide, _, _, rfl, rfl, by decide⟩, by decide,
    ⟨rfl, by decide, rfl, rfl⟩, by decide, ⟨rfl, by decide, rfl, rfl⟩, by decide⟩
/-- A program counter of `L`, and one of -1. -/
theorem witness_FetchOutsideFaults :
    (machine [99]).status = .running ∧ (machine [99]).coreIsNext = true ∧
    ¬ ((0 : Int) ≤ 1 ∧ (1 : Int) < ((machine [99]).mem.len : Int)) ∧ State.pc { machine [99] with pc := 1 } = 1 ∧
    ¬ ((0 : Int) ≤ -1) ∧ State.pc { machine [99] with pc := -1 } = -1 := by decide
/-- The last operand cell missing, and the first one. -/
theorem witness_OperandCellOutsideFaults :
    ((machine [1, 0, 0]).mem.read 0 = some 1 ∧ decodeOp 1 = .ok (.add .position .position) ∧
      3 ≤ (Operation.add .position .position).arity ∧ (machine [1, 0, 0]).mem.Valid 1 ∧ (machine [1, 0, 0]).mem.Valid 2 ∧
      ¬ (machine [1, 0, 0]).mem.Valid 3) ∧
    ((machine [3]).mem.read 0 = some 3 ∧ decodeOp 3 = .ok .read ∧ 1 ≤ Operation.read.arity ∧
      ¬ (machine [3]).mem.Valid 1) := by decide
theorem witness_DecodeFailureByPolicy :
    (machine [98]).status = .running ∧ (machine [98]).coreIsNext = true ∧ (machine [98]).mem.read 0 = some 98 ∧
    decodeOp 98 = .error (.unknownOpcode 98) ∧ (machine [98]).cfg.decodePolicy = .fault ∧
    (lenient [98]).status = .running ∧ (lenient [98]).coreIsNext = true ∧ (lenient [98]).mem.read 0 = some 98 ∧
    (lenient [98]).cfg.decodePolicy = .skip := by decide
theorem witness_HaltedStepIsNoOp :
    let s : State := { machine [99] with status := .halted, turns := [.core] }
    s.status = .halted ∧ s.busy = false ∧ s.coreIsNext = true := by decide
theorem witness_FaultedMachineHasNoStep :
    let s : State := { machine [99] with status := .faulted (.invalidOpcode 0 98) }
    s.status = .faulted (.invalidOpcode 0 98) ∧ s.busy = false ∧ s.coreIsNext = true := by decide
theorem witness_BlockedMachineWaits :
    (machine [3, 1]).coreIsNext = true ∧ (machine [3, 1]).blockedOnInput = true ∧
    (machine [4, 1]).coreIsNext = true ∧ (machine [4, 1]).blockedOnOutput = true := by decide

theorem witness_HostDropsAChannel :
    (machine [99]).busy = false ∧ State.turns { machine [99] with turns := [.host .dropInbound] } = [.host .dropInbound] ∧
    State.turns { machine [99] with turns := [.host .dropOutbound] } = [.host .dropOutbound] := by decide
theorem witness_BlockedMachineFaultsOnDisconnect :
    (machine [3, 1]).busy = false ∧ State.inReady { machine [3, 1] with turns := [.host .dropInbound, .core] } = true ∧
    (machine [4, 1]).busy = false ∧ State.outValid { machine [4, 1] with turns := [.host .dropOutbound, .core] } = true := by
  decide
theorem witness_ConnectionsNeverReturn :
    ∃ t, step { machine [99] with turns := [.host .dropInbound] } = .next t ∧
      State.rebuildsNext { machine [99] with turns := [.host .dropInbound] } = false ∧ t.outConn = true :=
  ⟨_, rfl, rfl, rfl⟩
theorem witness_TraceOnlyGrows :
    ∃ t, step (machine [99]) = .next t ∧ (machine [99]).rebuildsNext = false ∧ t.trace = [.halt] := ⟨_, rfl, rfl, rfl⟩
/-- An offer (of the greatest cell), a readiness and an image. -/
theorem witness_HostLeavesMachineAlone :
    State.turns { machine [3, 0] with turns := [.host (.offer (2 ^ 63 - 1)), .core] } =
      .host (.offer (2 ^ 63 - 1)) :: [.core] ∧
    HostAct.rebuilds (.offer 5) = false ∧
    State.turns { machine [4, 0] with turns := [.host (.setReady true)] } = .host (.setReady true) :: [] ∧
    State.turns { pipeline [4, 0] [1] with turns := [.host (.setImage [99])] } = .host (.setImage [99]) :: [] := by decide
/-- A power-up in the middle of a run. -/
theorem witness_ResetValues :
    State.turns { pipeline [99] [4] with turns := [.host .powerUp] } = .host .powerUp :: [] := by decide
/-- A step with a transfer in, a step with a transfer out, and a step with neither. -/
theorem witness_TransferExactlyWhenBothReady :
    (∃ t, step { machine [3, 0] with inOffer := some 5 } = .next t ∧ t.trace = [] ++ [.input 5]) ∧
    (∃ t, step { machine [104, 5] with outReady := true } = .next t ∧ t.trace = [] ++ [.output 5]) ∧
    (∃ t, step (machine [3, 0]) = .next t ∧ t.trace = []) ∧ (machine [3, 0]).status = .running ∧
    (machine [3, 0]).coreIsNext = true :=
  ⟨⟨_, rfl, rfl⟩, ⟨_, rfl, rfl⟩, ⟨_, rfl, rfl⟩, rfl, rfl⟩
/-- The offer stands; is taken; is withdrawn by a drop. -/
theorem witness_OfferStandsUntilTaken :
    (∃ t, step { machine [99] with inOffer := some 5 } = .next t ∧ t.inOffer = some 5) ∧
    (∃ t, step { machine [3, 0] with inOffer := some 5 } = .next t ∧ t.inOffer = none) ∧
    (∃ t, step { machine [99] with inOffer := some 5, turns := [.host .dropInbound] } = .next t ∧ t.inConn = false) :=
  ⟨⟨_, rfl, rfl⟩, ⟨_, rfl, rfl⟩, ⟨_, rfl, rfl⟩⟩
theorem witness_InReadyStands :
    ∃ t, (machine [3, 0]).inReady = true ∧ (machine [3, 0]).rebuildsNext = false ∧ step (machine [3, 0]) = .next t :=
  ⟨_, by decide, rfl, rfl⟩
theorem witness_OutDataStands :
    ∃ t, (machine [4, 1]).outData = some 1 ∧ (machine [4, 1]).rebuildsNext = false ∧ step (machine [4, 1]) = .next t :=
  ⟨_, by decide, rfl, rfl⟩

theorem witness_ResetLoadsImage :
    let s : State := { machine [99] with turns := [.host (.reset [-2 ^ 63, 2 ^ 63 - 1])] }
    s.busy = false ∧ (∀ v ∈ [-2 ^ 63, 2 ^ 63 - 1], inRange s.cfg.width v) ∧
    s.turns = .host (.reset [-2 ^ 63, 2 ^ 63 - 1]) :: [] := by decide
theorem witness_StoppedMachineKeepsItsState :
    ∃ t, State.status { machine [99] with status := .halted } ≠ .running ∧
      State.rebuildsNext { machine [99] with status := .halted } = false ∧
      step { machine [99] with status := .halted } = .next t :=
  ⟨_, by decide, rfl, rfl⟩
theorem witness_StepKeepsInvariant :
    ∃ t, (machine [1, 0, 0, 0, 99]).Inv ∧ step (machine [1, 0, 0, 0, 99]) = .next t := ⟨_, by decide, rfl⟩
theorem witness_ParametersNeverChange :
    ∃ t, step (machine [99]) = .next t ∧ (machine [99]).rebuildsNext = false := ⟨_, rfl, rfl⟩

theorem witness_StartWithWrongArity :
    let s : State := { machine [99] with turns := [.host (.start [99] 1 [])] }
    s.busy = false ∧ (∀ v ∈ [99], inRange s.cfg.width v) ∧ (∀ v ∈ ([] : List Int), inRange s.cfg.width v) ∧
    s.turns = .host (.start [99] 1 []) :: [] ∧ ([] : List Int).length ≠ 1 := by decide
/-- A start with no stage, and one with a stage. -/
theorem witness_StartBuildsStageZero :
    (let s : State := { machine [99] with turns := [.host (.start [99] 0 [])] };
      s.busy = false ∧ (∀ v ∈ [99], inRange s.cfg.width v) ∧ s.turns = .host (.start [99] ([] : List Int).length []) :: []) ∧
    (let s : State := { machine [99] with turns := [.host (.start [99] 1 [4])] };
      s.busy = false ∧ (∀ v ∈ [99, 4], inRange s.cfg.width v) ∧ s.turns = .host (.start [99] [4].length [4]) :: []) := by
  decide
/-- A reset, and an image on the port. -/
theorem witness_HostCannotReachStage :
    (let s : State := { pipeline [3, 0, 99] [4] with turns := [.host (.reset [])] };
      s.busy = true ∧ s.turns = .host (.reset []) :: [] ∧ HostAct.reset [] ≠ .powerUp) ∧
    (∀ img, HostAct.reset [] ≠ .setImage img) ∧ HostAct.setImage [98] ≠ .powerUp :=
  ⟨by decide, nofun, nofun⟩
theorem witness_FeederGivesPhaseThenCarry :
    let s := pipeline [3, 1] [4]
    s.busy = true ∧ s.inConn = true ∧ s.mem.wf = true ∧ s.mem.Valid 1 ∧ s.phases[s.k]? = some 4 ∧ s.fed = 0 ∧
    State.fed { s with fed := 1 } = 1 ∧ 2 ≤ State.fed { s with fed := 2 } := by decide
theorem witness_DrainerTakesEveryOutput :
    (pipeline [4, 1] [4]).busy = true ∧ (pipeline [4, 1] [4]).outConn = true ∧
    (pipeline [4, 1] [4]).source .position 1 = some 1 := by decide
/-- A faulted stage; one input taken; both taken and no output, and two; an arbiter that is AFaulted. -/
theorem witness_StageEndChecks :
    let s := pipeline [99] [4]
    s.busy = true ∧ s.coreIsNext = true ∧
    State.status { s with status := .faulted (.invalidOpcode 0 98) } = .faulted (.invalidOpcode 0 98) ∧
    (let t : State := { s with status := .halted, fed := 1 };
      t.status = .halted ∧ t.fed < 2) ∧
    (let t : State := { s with status := .halted, fed := 2 };
      t.status = .halted ∧ 2 ≤ t.fed ∧ t.outs.length ≠ 1) ∧
    (let t : State := { s with status := .halted, fed := 2, outs := [1, 2] };
      t.status = .halted ∧ 2 ≤ t.fed ∧ t.outs.length ≠ 1) ∧
    State.astatus { s with astatus := .afaulted (.pipelineArity 3 2) } = .afaulted (.pipelineArity 3 2) := by decide
/-- The last stage but one, and the last. -/
theorem witness_CarryPassesToNextStage :
    (let s : State := { pipeline [99] [4, 5] with status := .halted, fed := 2, outs := [7] };
      s.busy = true ∧ s.coreIsNext = true ∧ s.status = .halted ∧ 2 ≤ s.fed ∧ s.outs = [7] ∧ s.k + 1 < s.nStages) ∧
    (let s : State := { pipeline [99] [4] with status := .halted, fed := 2, outs := [7] };
      s.busy = true ∧ s.coreIsNext = true ∧ s.status = .halted ∧ 2 ≤ s.fed ∧ s.outs = [7] ∧ s.nStages ≤ s.k + 1) := by decide
/-- Two stages of different runs: the first of `[4]` and the first of `[4, 5]`. -/
theorem witness_StageDependsOnlyOnItsInputs :
    ∃ s', (pipeline [3, 1] [4]).SameStage (pipeline [3, 1] [4, 5]) ∧ (pipeline [3, 1] [4]).coreIsNext = true ∧
      (pipeline [3, 1] [4, 5]).coreIsNext = true ∧ (pipeline [3, 1] [4]).status = .running ∧
      step (pipeline [3, 1] [4]) = .next s' :=
  ⟨_, by decide, rfl, rfl, rfl, rfl⟩
/-- Both sides of the equivalence are met: by no stage, the host taking turns all the while, and by a stage that takes its two
inputs, emits 5 and halts. -/
theorem witness_PipelineComputesCarryChain :
    (∀ act, Turn.host act ∈ [.host (.offer 5), .core, .host (.reset [99])] → act.keepsRun = true) ∧
    (∃ t, Reaches { (State.powered Config.default).startRun [99] 0 [] with
        turns := [.host (.offer 5), .core, .host (.reset [99])] } t ∧ t.astatus = .done 0) ∧
    CarryChain Config.default [99] [] 0 0 ∧ StageEmits Config.default [3, 0, 3, 0, 104, 5, 99] 4 0 5 :=
  ⟨by simp [HostAct.keepsRun], ⟨_, .refl _, rfl⟩, rfl,
    _, .step (.step (.step (.step (.refl _) rfl) rfl) rfl) rfl, rfl, rfl, rfl, rfl⟩

end Sys2Proof.Tests
end

/-! SUPPORT. Proofs of the family 00_scope: the cell of R10, that every instruction answers a next state (R12), and the
invariant of R5, R22 and R98 at reset and along every step. -/

namespace Sys2Proof.Machine

/-! ## The cell congruent to a value (00_scope R10) -/

theorem two_mul_cellLimit {W : Nat} (hW : 1 ≤ W) : 2 * cellLimit W = ((2 ^ W : Nat) : Int) := by
  obtain ⟨n, rfl⟩ : ∃ n, W = n + 1 := ⟨W - 1, by omega⟩
  simp [cellLimit, pow_succ, mul_comm]

/-- Two cells that differ by a multiple of `2^W` are less than `2^W` apart, so they are one cell. -/
theorem eq_of_inRange_of_dvd_sub {W : Nat} {x y : Int} (hW : 1 ≤ W) (hx : inRange W x) (hy : inRange W y)
    (hd : ((2 ^ W : Nat) : Int) ∣ x - y) : x = y := by
  have hspan : |x - y| < ((2 ^ W : Nat) : Int) := by
    rw [← two_mul_cellLimit hW, abs_lt]
    obtain ⟨hx0, hx1⟩ := hx
    obtain ⟨hy0, hy1⟩ := hy
    constructor <;> omega
  exact sub_eq_zero.mp (Int.eq_zero_of_abs_lt_dvd hd hspan)

/-- Settles O11: `wrap x` is a cell congruent to `x`, and two congruent cells are equal. -/
theorem wrapIsTheCongruentCell : Obligations.WrapIsTheCongruentCell := by
  intro W x y hW
  constructor
  · rintro ⟨hy, hxy⟩
    have hwy : ((2 ^ W : Nat) : Int) ∣ wrap W x - y := by
      simpa using dvd_sub hxy (wrap_congruent W x)
    exact (eq_of_inRange_of_dvd_sub hW (wrap_inRange hW x) hy hwy).symm
  · rintro rfl
    exact ⟨wrap_inRange hW x, wrap_congruent W x⟩

/-! ## Every instruction answers a next state (00_scope R12, 60_exceptions R105) -/

theorem State.exists_complete_eq_next (s : State) (x : Except Fault State) : ∃ t, s.complete x = .next t := by
  cases x with
  | ok t => exact ⟨t, s.complete_ok t⟩
  | error f => exact ⟨s.raise f, s.complete_error f⟩

/-- Settles O22: HLT answers its state, and every other instruction ends by `State.complete`. -/
theorem execAlwaysAnswersNext : Obligations.ExecAlwaysAnswersNext := by
  intro i s
  cases i with
  | hlt => exact ⟨_, rfl⟩
  | _ => exact s.exists_complete_eq_next _

/-! ## Values found in a state that meets the invariant are cells (00_scope R5) -/

theorem lookupCell_inRange {W : Nat} {cs : List (Nat × Int)} (h : ∀ p ∈ cs, inRange W p.2) (a : Nat) :
    inRange W (lookupCell cs a) := by
  induction cs with
  | nil => exact inRange_zero W
  | cons p rest ih =>
    unfold lookupCell
    split
    · exact h p List.mem_cons_self
    · exact ih fun q hq => h q (List.mem_cons_of_mem p hq)

theorem Memory.read_inRange {W : Nat} {m : Memory} {a v : Int} (h : ∀ p ∈ m.cells, inRange W p.2)
    (hr : m.read a = some v) : inRange W v := by
  rw [Memory.read_of_valid (Memory.valid_of_read hr)] at hr
  cases hr
  exact lookupCell_inRange h _

/-- What the feeder offers, and how many inputs the stage has then taken (46_pipeline R92). -/
theorem State.feederOffer_eq_some {s : State} {x : Int} (h : s.feederOffer = some x) :
    (s.fed = 0 ∧ s.phases[s.k]? = some x) ∨ (s.fed = 1 ∧ x = s.carry) := by
  unfold State.feederOffer at h
  split at h
  · exact .inl ⟨by assumption, h⟩
  · split at h
    · cases h; exact .inr ⟨by assumption, rfl⟩
    · cases h

section Invariant

variable {s t : State}

theorem State.Inv.read_inRange (h : s.Inv) {a v : Int} (hr : s.mem.read a = some v) : inRange s.cfg.width v := by
  obtain ⟨-, -, ⟨hmem, -⟩, -⟩ := h
  exact Memory.read_inRange hmem hr

theorem State.Inv.source_inRange (h : s.Inv) {m : Mode} {a x : Int} (ha : inRange s.cfg.width a)
    (hx : s.source m a = some x) : inRange s.cfg.width x := by
  cases m with
  | immediate => cases hx; exact ha
  | position => exact h.read_inRange hx

theorem State.Inv.peerOffer_inRange (h : s.Inv) {x : Int} (hx : s.peerOffer = some x) : inRange s.cfg.width x := by
  obtain ⟨-, -, ⟨-, hoffer, hcarry, -, -, hphases⟩, -⟩ := h
  unfold State.peerOffer at hx
  split at hx
  · rcases State.feederOffer_eq_some hx with ⟨-, hp⟩ | ⟨-, rfl⟩
    · exact hphases x (List.mem_of_getElem? hp)
    · exact hcarry
  · exact hoffer x (by simp [hx])

/-- A fetched instruction's operands were read from memory (30_encoding R41). -/
theorem State.Inv.wellFormed_of_fetch (h : s.Inv) {i : Instr} (hf : s.fetch = .instr i) :
    i.WellFormed s.cfg.width := by
  obtain ⟨v, d, -, -, ho⟩ := State.fetch_eq_instr hf
  intro x hx
  obtain ⟨j, hj⟩ := (State.fetchOperands_eq_ok ho).2 x hx
  exact h.read_inRange hj

/-- A fetched instruction's opcode is a cell that is at least 1, so 1 is a cell: the results of LT and EQ fit, even where `W`
is so small that not every opcode does. -/
theorem State.Inv.one_inRange_of_fetch (h : s.Inv) {i : Instr} (hf : s.fetch = .instr i) : inRange s.cfg.width 1 := by
  obtain ⟨v, d, hv, hd, -⟩ := State.fetch_eq_instr hf
  exact inRange_one_of_le (h.read_inRange hv) (one_le_of_decodeOp hd)

/-! ## The operations that keep the invariant

An update of the program counter, the status, the trace, the outbound readiness or the turns leaves every field that the
invariant speaks of as it is, so the invariant of the old state is that of the new one. -/

theorem State.Inv.turnTaken (h : s.Inv) : s.turnTaken.Inv := h

theorem State.Inv.emit (h : s.Inv) (e : Event) : (s.emit e).Inv := h

theorem State.Inv.advance (h : s.Inv) (n : Int) : (s.advance n).Inv := h

theorem State.Inv.raise (h : s.Inv) (f : Fault) : (s.raise f).Inv := h

theorem State.Inv.memWrite (h : s.Inv) (d : Int) {v : Int} (hv : inRange s.cfg.width v) : (s.memWrite d v).Inv := by
  obtain ⟨hW, hwf, ⟨hmem, hcells⟩, hrest⟩ := h
  refine ⟨hW, Memory.wf_write d v hwf, ⟨fun p hp => ?_, hcells⟩, hrest⟩
  rcases Memory.mem_write hp with hpv | hp
  · rw [hpv]; exact hv
  · exact hmem p hp

/-- The feeder offers only while `fed` is below 2, so its count stays at most 2; a host's offer is gone (42_io_channels R75,
46_pipeline R92). -/
theorem State.Inv.takeOffer (h : s.Inv) {x : Int} (hx : s.peerOffer = some x) : s.takeOffer.Inv := by
  obtain ⟨hW, hwf, ⟨hmem, hoffer, hcells⟩, hconn, hk, hfed, harb⟩ := h
  unfold State.takeOffer
  unfold State.peerOffer at hx
  cases hb : s.busy with
  | true =>
    rw [if_pos hb] at hx
    have hlt : s.fed + 1 ≤ 2 := by
      rcases State.feederOffer_eq_some hx with ⟨h0, -⟩ | ⟨h1, -⟩ <;> omega
    exact ⟨hW, hwf, ⟨hmem, hoffer, hcells⟩, hconn, hk, hlt, harb⟩
  | false => exact ⟨hW, hwf, ⟨hmem, nofun, hcells⟩, nofun, hk, hfed, harb⟩

theorem State.Inv.deliver (h : s.Inv) {x : Int} (hx : inRange s.cfg.width x) : (s.deliver x).Inv := by
  unfold State.deliver
  split
  · obtain ⟨hW, hwf, ⟨hmem, hoffer, hcarry, houts, hin⟩, hrest⟩ := h
    refine ⟨hW, hwf, ⟨hmem, hoffer, hcarry, fun v hv => ?_, hin⟩, hrest⟩
    rcases List.mem_append.mp hv with hv | hv
    · exact houts v hv
    · rw [List.mem_singleton.mp hv]; exact hx
  · exact h

theorem State.Inv.resetCore (h : s.Inv) {img : List Int} (himg : ∀ v ∈ img, inRange s.cfg.width v) :
    (s.resetCore img).Inv := by
  obtain ⟨hW, -, ⟨-, -, hcells⟩, -, hk, hfed, hstage, hresult⟩ := h
  refine ⟨hW, Memory.wf_ofImage img, ⟨fun p hp => himg _ (mem_cellsOfImage hp), nofun, hcells⟩, nofun, hk, hfed,
    fun hb => ?_, hresult⟩
  obtain ⟨hlt, hlen, -, -⟩ := hstage hb
  exact ⟨hlt, hlen, rfl, rfl⟩

/-- The invariant with an idle arbiter asks the least of the arbiter's fields. -/
theorem State.Inv.idle (h : s.Inv) : State.Inv { s with astatus := .idle } := by
  obtain ⟨hW, hwf, hcells, hconn, hk, hfed, -, -⟩ := h
  exact ⟨hW, hwf, hcells, hconn, hk, hfed, nofun, nofun⟩

theorem State.Inv.arbiterRaise (h : State.Inv { s with astatus := .idle }) (g : ArbiterFault) : (s.arbiterRaise g).Inv := by
  obtain ⟨hW, hwf, hcells, hconn, hk, hfed, -, -⟩ := h
  exact ⟨hW, hwf, hcells, hconn, hk, hfed, nofun, nofun⟩

/-- The top of the loop of 46_pipeline R89 begins a stage or ends the run, whatever the arbiter's
status was before it. -/
theorem State.Inv.nextStage (h : State.Inv { s with astatus := .idle }) (hlen : s.phases.length = s.nStages) :
    s.nextStage.Inv := by
  obtain ⟨hW, hwf, hcells, hconn, hk, hfed, -, -⟩ := h
  rcases Nat.lt_or_ge s.k s.nStages with hlt | hge
  · rw [State.nextStage_of_lt hlt]
    obtain ⟨-, -, hcarry, -, himg, hphases⟩ := hcells
    exact ⟨hW, Memory.wf_ofImage s.img,
      ⟨fun p hp => himg _ (mem_cellsOfImage hp), nofun, hcarry, nofun, himg, hphases⟩, nofun, hk, Nat.zero_le 2,
      fun _ => ⟨hlt, hlen, rfl, rfl⟩, nofun⟩
  · rw [State.nextStage_of_ge hge]
    refine ⟨hW, hwf, hcells, hconn, hk, hfed, nofun, fun r hr => ?_⟩
    exact ⟨Nat.le_antisymm hk hge, List.mem_singleton.mp hr⟩

theorem State.Inv.startRun (h : s.Inv) {img : List Int} {n : Nat} {ps : List Int}
    (himg : ∀ v ∈ img, inRange s.cfg.width v) (hps : ∀ v ∈ ps, inRange s.cfg.width v) : (s.startRun img n ps).Inv := by
  obtain ⟨hW, hwf, ⟨hmem, hoffer, -⟩, hconn, -⟩ := h
  have hr : State.Inv { s with
      astatus := .idle, k := 0, carry := 0, fed := 0, outs := [], img := img, nStages := n, phases := ps } :=
    ⟨hW, hwf, ⟨hmem, hoffer, inRange_zero _, nofun, himg, hps⟩, hconn, Nat.zero_le n, Nat.zero_le 2, nofun, nofun⟩
  unfold State.startRun
  split
  · rename_i hlen; exact State.Inv.nextStage hr hlen
  · exact State.Inv.arbiterRaise hr _

theorem State.Inv.stageHalted (h : s.Inv) (hb : s.busy = true) : s.stageHalted.Inv := by
  rcases s.stageHalted_cases with ⟨g, hg⟩ | ⟨r, -, houts, hnext⟩
  · rw [hg]; exact State.Inv.arbiterRaise h.idle g
  · rw [hnext]
    obtain ⟨hW, hwf, ⟨hmem, hoffer, -, houtCells, hin⟩, hconn, -, hfed, hstage, -⟩ := h
    obtain ⟨hlt, hlen, -, -⟩ := hstage hb
    have hr : inRange s.cfg.width r := houtCells r (by simp [houts])
    have hidle : State.Inv { s with carry := r, k := s.k + 1, astatus := .idle } :=
      ⟨hW, hwf, ⟨hmem, hoffer, hr, houtCells, hin⟩, hconn, hlt, hfed, nofun, nofun⟩
    exact State.Inv.nextStage hidle hlen

theorem State.Inv.decodeFailure (h : s.Inv) (v : Int) : (s.decodeFailure v).Inv := by
  rcases s.decodeFailure_cases v with hf | hskip
  · rw [hf]; exact h.raise _
  · rw [hskip]; exact (h.emit _).advance 1

/-- At reset the memory, the ports and the arbiter's lists are empty and every number is 0, so the width is all that the
invariant asks of the parameters (10_state R25, R26). -/
theorem State.inv_reset_with {cfg : Config} (hW : 1 ≤ cfg.width) (turns : List Turn) :
    State.Inv { State.reset with cfg := cfg, turns := turns } :=
  ⟨hW, rfl, ⟨nofun, nofun, inRange_zero _, nofun, nofun, nofun⟩, nofun, Nat.le_refl 0, Nat.zero_le 2, nofun, nofun⟩

theorem State.Inv.powerUp (h : s.Inv) : s.powerUp.Inv := by
  obtain ⟨hW, -⟩ := h
  exact State.inv_reset_with hW s.turns

/-! ## Every turn keeps the invariant -/

/-- An instruction keeps the invariant when its operands are cells and 1 is one. -/
theorem Effect.inv {i : Instr} (e : Effect s i t) (h : s.Inv) (hi : i.WellFormed s.cfg.width)
    (h1 : inRange s.cfg.width 1) : t.Inv := by
  cases e with
  | fault _ f => exact h.raise f
  | store _ d v _ _ _ _ hv =>
    have hcell : inRange s.cfg.width v := by
      rcases hv with hv | rfl | rfl
      · exact hv h.1
      · exact inRange_zero _
      · exact h1
    exact (h.memWrite d hcell).advance 4
  | receive d x _ _ hx =>
    have hcell : inRange s.takeOffer.cfg.width x := by
      rw [State.cfg_takeOffer]; exact h.peerOffer_inRange hx
    exact (((h.takeOffer hx).memWrite d hcell).emit _).advance 2
  | waitInput => exact h
  | send m a x hx =>
    have hcell : inRange s.cfg.width x := h.source_inRange (hi a (by simp [Instr.operands])) hx
    exact ((h.deliver hcell).emit _).advance 2
  | waitOutput => exact h
  | jump => exact h
  | fallThrough => exact h.advance 3
  | halt => exact h

theorem State.Inv.engineStep (h : s.Inv) (he : engineStep s = .next t) : t.Inv := by
  rcases engineStep_cases he with ⟨i, hf, hx⟩ | ⟨v, -, rfl⟩ | ⟨f, -, rfl⟩
  · exact (exec_effect hx).inv h (h.wellFormed_of_fetch hf) (h.one_inRange_of_fetch hf)
  · exact h.decodeFailure v
  · exact h.raise f

theorem State.Inv.coreTurn (h : s.Inv) (hc : coreTurn s = .next t) : t.Inv := by
  rcases coreTurn_cases hc with ⟨-, he⟩ | ⟨-, -, rfl⟩ | ⟨-, hb, rfl⟩ | ⟨f, -, -, rfl⟩
  · exact h.engineStep he
  · exact h
  · exact h.stageHalted hb
  · exact State.Inv.arbiterRaise h.idle _

theorem State.Inv.hostTurn_plain (h : s.Inv) {act : HostAct} (ha : act.rebuilds = false) : (s.hostTurn act).Inv := by
  rcases State.hostTurn_plain ha with e | ⟨v, e, hin, -, hb, hv⟩ | ⟨r, e⟩ | ⟨e, hb⟩ | ⟨e, hb⟩ | ⟨img, e, himg⟩ <;> rw [e]
  · exact h
  · obtain ⟨hW, hwf, ⟨hmem, -, hcells⟩, -, harb⟩ := h
    exact ⟨hW, hwf, ⟨hmem, by simpa using hv, hcells⟩, fun _ => hin, harb⟩
  · exact h
  · obtain ⟨hW, hwf, ⟨hmem, -, hcells⟩, -, hk, hfed, -, hresult⟩ := h
    exact ⟨hW, hwf, ⟨hmem, nofun, hcells⟩, nofun, hk, hfed, fun hb' => absurd (hb.symm.trans hb') nofun, hresult⟩
  · obtain ⟨hW, hwf, hcells, hconn, hk, hfed, -, hresult⟩ := h
    exact ⟨hW, hwf, hcells, hconn, hk, hfed, fun hb' => absurd (hb.symm.trans hb') nofun, hresult⟩
  · obtain ⟨hW, hwf, ⟨hmem, hoffer, hcarry, houts, -, hphases⟩, hrest⟩ := h
    exact ⟨hW, hwf, ⟨hmem, hoffer, hcarry, houts, himg, hphases⟩, hrest⟩

theorem State.Inv.hostTurn (h : s.Inv) (act : HostAct) : (s.hostTurn act).Inv := by
  cases ha : act.rebuilds with
  | false => exact h.hostTurn_plain ha
  | true =>
    rcases State.hostTurn_rebuild ha with e | ⟨img, e, -, himg⟩ | ⟨img, n, ps, e, -, himg, hps⟩ | e <;> rw [e]
    · exact h
    · exact h.resetCore himg
    · exact h.startRun himg hps
    · exact h.powerUp

end Invariant

/-- Settles O50: the step is the core's turn or the host's, and each keeps the invariant. -/
theorem stepKeepsInvariant : Obligations.StepKeepsInvariant := by
  intro s t h hstep
  rcases step_cases hstep with ⟨-, hc⟩ | ⟨act, rest, -, rfl⟩
  · exact h.turnTaken.coreTurn hc
  · exact h.turnTaken.hostTurn act

/-- Settles O49: the reset state with its own parameters, whose width is 64. -/
theorem invariantAtReset : Obligations.InvariantAtReset := by
  have hW : 1 ≤ Config.default.width := by decide
  exact State.inv_reset_with hW []

end Sys2Proof.Machine

/-! SUPPORT. Proofs of the family 10_state: what an instruction leaves as it is (R13, R19, R20, R22), the halted flag (R16)
and the program counter (R15) after it, what every step keeps of the machine (R13, R14, R20, R24), and the reset values (R25,
R26). -/

namespace Sys2Proof.Machine

/-! ## What an instruction writes, and where it leaves the flags and the program counter -/

/-- Settles O25: the two transfers of IN and OUT reach the peer's half and no more; every other effect updates memory, the
program counter, the status or the trace alone. -/
theorem instructionFrame : Obligations.InstructionFrame := by
  intro i s t h
  cases exec_effect h with
  | receive d x => simp
  | send m a x => simp
  | _ =>
    exact ⟨rfl, rfl, rfl, rfl, rfl, rfl, rfl, rfl, rfl, rfl, rfl, fun _ => ⟨rfl, rfl⟩, fun _ => rfl⟩

/-- No effect but HLT's sets the status to Halted: a fault sets it to Faulted, the others leave it. -/
theorem Effect.status_eq_halted_iff {s t : State} {i : Instr} (e : Effect s i t) (hr : s.status = .running) :
    t.status = .halted ↔ i = .hlt := by
  cases e with
  | halt => exact iff_of_true rfl rfl
  | fault i f hi => exact iff_of_false nofun hi
  | store i d v hd => exact iff_of_false (by simp [hr]) (by rintro rfl; cases hd)
  | jump i u hi => exact iff_of_false (by simp [hr]) (by rintro rfl; cases hi)
  | fallThrough i hi => exact iff_of_false (by simp [hr]) (by rintro rfl; cases hi)
  | _ => exact iff_of_false (by simp [hr]) nofun

/-- Settles O26: every answer of `exec` is an effect, and HLT's alone halts. -/
theorem onlyHltHalts : Obligations.OnlyHltHalts :=
  fun _ _ _ hr h => (exec_effect h).status_eq_halted_iff hr

/-- What a conditional jump makes of the state: it falls through, or it is taken and the target resolves
(43_conditional_jump R85). -/
theorem State.condJump_eq_ok {s t : State} {pol : Bool} {m1 m2 : Mode} {a b : Int}
    (h : s.condJump pol m1 m2 a b = .ok t) :
    t = s.advance 3 ∨
    ∃ p u, s.source m1 a = some p ∧ s.source m2 b = some u ∧ decide (p ≠ 0) = pol ∧ t = { s with pc := u } := by
  simp only [State.condJump, except_bind_eq_ok, State.val_eq_ok] at h
  obtain ⟨p, hp, h⟩ := h
  split at h
  · rename_i hpol
    obtain ⟨u, hu, h⟩ := except_bind_eq_ok.mp h
    cases h
    exact .inr ⟨p, u, hp, State.val_eq_ok.mp hu, hpol, rfl⟩
  · cases h; exact .inl rfl

theorem State.pc_of_complete_condJump {s t : State} {pol : Bool} {m1 m2 : Mode} {a b : Int}
    (h : s.complete (s.condJump pol m1 m2 a b) = .next t) (hf : ∀ f, t.status ≠ .faulted f) :
    t.pc = s.pc + 3 ∨ ∃ p, s.source m1 a = some p ∧ s.source m2 b = some t.pc ∧ decide (p ≠ 0) = pol := by
  rcases State.complete_eq_next.mp h with h | ⟨f, -, rfl⟩
  · rcases State.condJump_eq_ok h with rfl | ⟨p, u, hp, hu, hpol, rfl⟩
    · exact .inl rfl
    · exact .inr ⟨p, hp, hu, hpol⟩
  · exact absurd rfl (hf f)

/-- The instructions of two operands are JT and JF, one for each polarity (43_conditional_jump R83, R84). -/
theorem exec_of_arity_two {i : Instr} (hi : i.operation.arity = 2) (s : State) :
    ∃ pol m1 m2 a b, exec i s = s.complete (s.condJump pol m1 m2 a b) ∧
      ((i = .jt m1 m2 a b ∧ pol = true) ∨ (i = .jf m1 m2 a b ∧ pol = false)) := by
  cases i with
  | jt m1 m2 a b => exact ⟨true, m1, m2, a, b, rfl, .inl ⟨rfl, rfl⟩⟩
  | jf m1 m2 a b => exact ⟨false, m1, m2, a, b, rfl, .inr ⟨rfl, rfl⟩⟩
  | _ => cases hi

/-- Settles O27: by the effect. A jump goes to its target or falls through; IN or OUT may wait; every other effect
advances the program counter by the instruction's length. -/
theorem pcAfterInstruction : Obligations.PcAfterInstruction := by
  intro i s t _ h hf
  have hadvance (n : Nat) (hn : t.pc = s.pc + n) (hl : i.length = n) : t.pc = s.pc + (i.length : Int) := hl ▸ hn
  cases exec_effect h with
  | fault _ f => exact absurd rfl (hf f)
  | store _ d v _ hl => exact .inl (hadvance 4 rfl hl)
  | receive d x => exact .inl (hadvance 2 (by simp) rfl)
  | waitInput d => exact .inr (.inl ⟨rfl, .inl ⟨d, rfl⟩⟩)
  | send m a x => exact .inl (hadvance 2 (by simp) rfl)
  | waitOutput m a x => exact .inr (.inl ⟨rfl, .inr ⟨m, a, rfl⟩⟩)
  | jump _ u hi =>
    obtain ⟨pol, m1, m2, a, b, e, hjump⟩ := exec_of_arity_two hi s
    rcases State.pc_of_complete_condJump (e ▸ h) hf with hpc | ⟨p, hp, hu, hpol⟩
    · exact .inl (hadvance 3 hpc (by rw [Instr.length, hi]))
    · refine .inr (.inr ⟨m1, m2, a, b, p, hp, hu, ?_⟩)
      rcases hjump with ⟨rfl, rfl⟩ | ⟨rfl, rfl⟩
      · exact .inl ⟨rfl, of_decide_eq_true hpol⟩
      · exact .inr ⟨rfl, not_not.mp (of_decide_eq_false hpol)⟩
  | fallThrough _ hi => exact .inl (hadvance 3 rfl (by rw [Instr.length, hi]))
  | halt => exact .inl rfl

/-! ## A step that does not make the machine anew -/

theorem State.rebuildsNext_of_core {s : State} (h : s.coreIsNext = true) :
    s.rebuildsNext = (s.busy && decide (s.status ≠ .running)) := by
  unfold State.coreIsNext at h
  unfold State.rebuildsNext
  split at h
  · rename_i e; rw [e]
  · rename_i e; rw [e]
  · cases h

theorem State.rebuildsNext_of_host {s : State} {act : HostAct} {rest : List Turn} (h : s.turns = .host act :: rest) :
    s.rebuildsNext = act.rebuilds := by
  unfold State.rebuildsNext
  rw [h]

/-- What a step that does not make the machine anew can be: a Running machine's own step, nothing at all where the machine is
Halted, or a turn of the host that does not rebuild. -/
theorem step_cases_of_not_rebuilds {s t : State} (h : step s = .next t) (hk : s.rebuildsNext = false) :
    (s.coreIsNext = true ∧ s.status = .running ∧ engineStep s.turnTaken = .next t) ∨
    (s.coreIsNext = true ∧ s.status = .halted ∧ t = s.turnTaken) ∨
    ∃ act rest, s.turns = .host act :: rest ∧ act.rebuilds = false ∧ t = s.turnTaken.hostTurn act := by
  rcases step_cases h with ⟨hc, h⟩ | ⟨act, rest, hact, rfl⟩
  · have hstage : s.busy = true → s.status = .running := by simpa [State.rebuildsNext_of_core hc] using hk
    rcases coreTurn_cases h with ⟨hr, h⟩ | ⟨hs, -, rfl⟩ | ⟨hs, hb, -⟩ | ⟨f, hs, hb, -⟩
    · exact .inl ⟨hc, hr, h⟩
    · exact .inr (.inl ⟨hc, hs, rfl⟩)
    · exact nomatch (hstage hb).symm.trans hs
    · exact nomatch (hstage hb).symm.trans hs
  · exact .inr (.inr ⟨act, rest, hact, State.rebuildsNext_of_host hact ▸ hk, rfl⟩)

/-- The machine of `t` is that of `s` some time later, and no other: no connection has come back (R20), the trace has only been
appended to (R24), and memory is as long as it was (R14). -/
structure State.Continues (s t : State) : Prop where
  inConn : t.inConn = true → s.inConn = true
  outConn : t.outConn = true → s.outConn = true
  trace : s.trace <+: t.trace
  len : t.mem.len = s.mem.len

theorem State.Continues.refl (s : State) : s.Continues s := ⟨id, id, List.prefix_rfl, rfl⟩

section Continues

variable {s t : State}

/-- An instruction appends at most one event. -/
theorem Effect.trace_prefix {i : Instr} (e : Effect s i t) : s.trace <+: t.trace := by
  cases e with
  | receive d x => simp
  | send m a x => simp
  | fault | halt => exact List.prefix_append _ _
  | _ => exact List.prefix_rfl

/-- An instruction stores at one address at most, and a store keeps the length of memory (20_memory R30). -/
theorem Effect.len_mem {i : Instr} (e : Effect s i t) : t.mem.len = s.mem.len := by
  cases e with
  | store => simp
  | receive d x => simp
  | send m a x => simp
  | _ => rfl

theorem State.Continues.of_turnTaken (h : s.turnTaken.Continues t) : s.Continues t :=
  ⟨h.inConn, h.outConn, h.trace, h.len⟩

theorem State.Continues.exec {i : Instr} (h : exec i s = .next t) : s.Continues t := by
  obtain ⟨-, hin, hout, -⟩ := instructionFrame i s t h
  have e := exec_effect h
  exact ⟨fun ht => hin ▸ ht, fun ht => hout ▸ ht, e.trace_prefix, e.len_mem⟩

theorem State.Continues.raise (s : State) (f : Fault) : s.Continues (s.raise f) :=
  ⟨id, id, List.prefix_append _ _, rfl⟩

theorem State.Continues.decodeFailure (s : State) (v : Int) : s.Continues (s.decodeFailure v) := by
  rcases s.decodeFailure_cases v with e | e <;> rw [e]
  · exact .raise s _
  · exact ⟨id, id, List.prefix_append _ _, rfl⟩

theorem State.Continues.engineStep (h : engineStep s = .next t) : s.Continues t := by
  rcases engineStep_cases h with ⟨i, -, h⟩ | ⟨v, -, rfl⟩ | ⟨f, -, rfl⟩
  · exact .exec h
  · exact .decodeFailure s v
  · exact .raise s f

/-- The host can drop a channel and can restore none (42_io_channels R77, R82). -/
theorem State.Continues.hostTurn {act : HostAct} (h : act.rebuilds = false) : s.Continues (s.hostTurn act) := by
  rcases State.hostTurn_plain h with e | ⟨v, e, -⟩ | ⟨r, e⟩ | ⟨e, -⟩ | ⟨e, -⟩ | ⟨img, e, -⟩ <;> rw [e]
  · exact .refl s
  · exact ⟨id, id, List.prefix_rfl, rfl⟩
  · exact ⟨id, id, List.prefix_rfl, rfl⟩
  · exact ⟨nofun, id, List.prefix_rfl, rfl⟩
  · exact ⟨id, nofun, List.prefix_rfl, rfl⟩
  · exact ⟨id, id, List.prefix_rfl, rfl⟩

theorem State.Continues.step (h : step s = .next t) (hk : s.rebuildsNext = false) : s.Continues t := by
  rcases step_cases_of_not_rebuilds h hk with ⟨-, -, h⟩ | ⟨-, -, rfl⟩ | ⟨act, rest, -, hact, rfl⟩
  · exact .of_turnTaken (.engineStep h)
  · exact .of_turnTaken (.refl _)
  · exact .of_turnTaken (.hostTurn hact)

end Continues

/-- Settles O38: the step continues the machine. -/
theorem connectionsNeverReturn : Obligations.ConnectionsNeverReturn := by
  intro s t h hk
  have hc := State.Continues.step h hk
  exact ⟨hc.inConn, hc.outConn⟩

/-- Settles O39: the step continues the machine. -/
theorem traceOnlyGrows : Obligations.TraceOnlyGrows := by
  intro s t h hk
  obtain ⟨events, hevents⟩ := (State.Continues.step h hk).trace
  exact ⟨events, hevents.symm⟩

/-! ## The parameters (R13) -/

section Parameters

variable {s t : State}

@[simp] theorem State.cfg_nextStage (s : State) : s.nextStage.cfg = s.cfg := by
  unfold State.nextStage; split <;> rfl

@[simp] theorem State.cfg_startRun (s : State) (img : List Int) (n : Nat) (ps : List Int) :
    (s.startRun img n ps).cfg = s.cfg := by
  unfold State.startRun; split <;> simp

@[simp] theorem State.cfg_stageHalted (s : State) : s.stageHalted.cfg = s.cfg := by
  rcases s.stageHalted_cases with ⟨g, e⟩ | ⟨r, -, -, e⟩ <;> simp [e]

@[simp] theorem State.cfg_decodeFailure (s : State) (v : Int) : (s.decodeFailure v).cfg = s.cfg := by
  rcases s.decodeFailure_cases v with e | e <;> simp [e]

@[simp] theorem State.cfg_hostTurn (s : State) (act : HostAct) : (s.hostTurn act).cfg = s.cfg := by
  cases ha : act.rebuilds with
  | false =>
    rcases State.hostTurn_plain ha with e | ⟨v, e, -⟩ | ⟨r, e⟩ | ⟨e, -⟩ | ⟨e, -⟩ | ⟨img, e, -⟩ <;> rw [e]
  | true =>
    rcases State.hostTurn_rebuild ha with e | ⟨img, e, -⟩ | ⟨img, n, ps, e, -⟩ | e <;> rw [e]
    · exact State.cfg_resetCore s img
    · exact State.cfg_startRun s img n ps
    · rfl

theorem cfg_of_engineStep (h : engineStep s = .next t) : t.cfg = s.cfg := by
  rcases engineStep_cases h with ⟨i, -, h⟩ | ⟨v, -, rfl⟩ | ⟨f, -, rfl⟩
  · obtain ⟨hcfg, -⟩ := instructionFrame i s t h
    exact hcfg
  · exact State.cfg_decodeFailure s v
  · exact State.cfg_raise s f

theorem cfg_of_coreTurn (h : coreTurn s = .next t) : t.cfg = s.cfg := by
  rcases coreTurn_cases h with ⟨-, h⟩ | ⟨-, -, rfl⟩ | ⟨-, -, rfl⟩ | ⟨f, -, -, rfl⟩
  · exact cfg_of_engineStep h
  · rfl
  · exact State.cfg_stageHalted s
  · exact State.cfg_arbiterRaise s _

theorem cfg_of_step (h : step s = .next t) : t.cfg = s.cfg := by
  rcases step_cases h with ⟨-, h⟩ | ⟨act, rest, -, rfl⟩
  · exact cfg_of_coreTurn (s := s.turnTaken) h
  · exact State.cfg_hostTurn s.turnTaken act

end Parameters

/-- Settles O51: no turn writes the parameters, and a step that continues the machine keeps the length of its memory. -/
theorem parametersNeverChange : Obligations.ParametersNeverChange :=
  fun _ _ h => ⟨cfg_of_step h, fun hk => (State.Continues.step h hk).len⟩

/-! ## Reset and power-up (R25, R26; 70_reset_and_hazards R115) -/

theorem Memory.read_of_len_zero {m : Memory} (h : m.len = 0) (a : Int) : m.read a = none := by
  rw [Memory.read_eq_none, Memory.Valid, h]
  omega

/-- A power-up leaves the reset values, but for the parameters and the turns still to come. -/
theorem step_of_powerUp {s : State} {rest : List Turn} (h : s.turns = .host .powerUp :: rest) :
    step s = .next { State.reset with cfg := s.cfg, turns := rest } := by
  rw [step_of_host h]
  unfold State.turnTaken
  rw [h]
  rfl

/-- Settles O45: the empty image has no cell, and a power-up answers the reset state outright. -/
theorem resetValues : Obligations.ResetValues := by
  constructor
  · exact ⟨rfl, Memory.read_of_len_zero rfl, rfl, rfl, rfl, rfl, rfl, rfl, rfl, rfl, rfl, rfl⟩
  · intro s rest h
    exact ⟨_, step_of_powerUp h, rfl, rfl, rfl, rfl, rfl, rfl⟩

end Sys2Proof.Machine

/-! SUPPORT. Proofs of the family 20_memory: an instruction changes no cell but its destination (R14, R30, R62), and the cell
it stores is what the next step fetches (R38, R39). -/

namespace Sys2Proof

/-! ## Which cells a decoded instruction was made of (30_encoding R41) -/

theorem take1_eq_ok {mk : Int → Instr} {cells rest : List Int} {i : Instr} (h : take1 mk cells = .ok (i, rest)) :
    ∃ a, cells = a :: rest ∧ i = mk a := by
  unfold take1 at h
  split at h <;> cases h
  exact ⟨_, rfl, rfl⟩

theorem take2_eq_ok {mk : Int → Int → Instr} {cells rest : List Int} {i : Instr} (h : take2 mk cells = .ok (i, rest)) :
    ∃ a b, cells = a :: b :: rest ∧ i = mk a b := by
  unfold take2 at h
  split at h <;> cases h
  exact ⟨_, _, rfl, rfl⟩

theorem take3_eq_ok {mk : Int → Int → Int → Instr} {cells rest : List Int} {i : Instr}
    (h : take3 mk cells = .ok (i, rest)) : ∃ a b c, cells = a :: b :: c :: rest ∧ i = mk a b c := by
  unfold take3 at h
  split at h <;> cases h
  exact ⟨_, _, _, rfl, rfl⟩

theorem Operation.takeOperands_eq_ok {d : Operation} {cells rest : List Int} {i : Instr}
    (h : d.takeOperands cells = .ok (i, rest)) : i.operation = d ∧ cells = i.operands ++ rest := by
  cases d with
  | halt => cases h; exact ⟨rfl, rfl⟩
  | read | write =>
    obtain ⟨a, rfl, rfl⟩ := take1_eq_ok h
    exact ⟨rfl, rfl⟩
  | condJump pol m1 m2 =>
    cases pol <;>
    · obtain ⟨a, b, rfl, rfl⟩ := take2_eq_ok h
      exact ⟨rfl, rfl⟩
  | add | mul | lessThan | equal =>
    obtain ⟨a, b, c, rfl, rfl⟩ := take3_eq_ok h
    exact ⟨rfl, rfl⟩

theorem decodeCells_eq_ok {cells rest : List Int} {i : Instr} (h : decodeCells cells = .ok (i, rest)) :
    ∃ v, decodeOp v = .ok i.operation ∧ cells = v :: (i.operands ++ rest) := by
  unfold decodeCells at h
  split at h
  · cases h
  · rename_i v tail
    split at h
    · rename_i d hd
      obtain ⟨rfl, rfl⟩ := Operation.takeOperands_eq_ok h
      exact ⟨v, hd, rfl⟩
    · cases h

end Sys2Proof

namespace Sys2Proof.Machine

/-! ## The fetch finds the instruction that the cells at the program counter decode to (40_decode_execute R57, R60) -/

theorem State.fetchOperands_of_operands {s : State} {i : Instr}
    (h : ∀ (j : Nat) (x : Int), i.operands[j]? = some x → s.operand (j + 1) = .ok x) :
    s.fetchOperands i.operation = .ok i := by
  cases i with
  | hlt => rfl
  | inp a | out _ a =>
    have ha : s.operand 1 = .ok a := h 0 a rfl
    simp [Instr.operation, State.fetchOperands, State.fetch1, ha]
  | jt _ _ a b | jf _ _ a b =>
    have ha : s.operand 1 = .ok a := h 0 a rfl
    have hb : s.operand 2 = .ok b := h 1 b rfl
    simp [Instr.operation, State.fetchOperands, State.fetch2, ha, hb]
  | add _ _ a b c | mul _ _ a b c | lt _ _ a b c | eq _ _ a b c =>
    have ha : s.operand 1 = .ok a := h 0 a rfl
    have hb : s.operand 2 = .ok b := h 1 b rfl
    have hc : s.operand 3 = .ok c := h 2 c rfl
    simp [Instr.operation, State.fetchOperands, State.fetch3, ha, hb, hc]

theorem State.fetch_of_decodeCells {s : State} {cells : List Int} {i : Instr} (hd : decodeCells cells = .ok (i, []))
    (h : ∀ (j : Nat) (x : Int), cells[j]? = some x → s.mem.read (s.pc + (j : Int)) = some x) : s.fetch = .instr i := by
  obtain ⟨v, hv, rfl⟩ := decodeCells_eq_ok hd
  have hopcode : s.mem.read s.pc = some v := by simpa using h 0 v rfl
  have hoperands : s.fetchOperands i.operation = .ok i :=
    State.fetchOperands_of_operands fun j x hj => State.memRead_of_read (h (j + 1) x (by simpa using hj))
  rw [State.fetch_of_cell hopcode hv, hoperands]

theorem step_of_decodeCells {s : State} {cells : List Int} {i : Instr} (hr : s.status = .running)
    (hc : s.coreIsNext = true) (hd : decodeCells cells = .ok (i, []))
    (h : ∀ (j : Nat) (x : Int), cells[j]? = some x → s.mem.read (s.pc + (j : Int)) = some x) :
    step s = exec i s.turnTaken :=
  step_of_instr hc hr (State.fetch_of_decodeCells hd h)

theorem step_of_decodeFailure {s : State} {v : Int} {e : DecodeError} (hr : s.status = .running)
    (hc : s.coreIsNext = true) (hv : s.mem.read s.pc = some v) (he : decodeOp v = .error e) :
    step s = .next (s.turnTaken.decodeFailure v) := by
  rw [step_of_running hc hr, engineStep, State.fetch_turnTaken, State.fetch_of_failure hv he]

/-! ## The destination is the only cell an instruction changes (20_memory R30) -/

theorem Effect.read_mem_of_ne_destination {s t : State} {i : Instr} (e : Effect s i t) (hw : s.mem.wf = true) {a : Int}
    (ha : i.destination ≠ some a) : t.mem.read a = s.mem.read a := by
  cases e with
  | store _ d v hd =>
    have hne : a ≠ d := by rintro rfl; exact ha hd
    exact Memory.read_write_other v hw hne
  | receive d x =>
    have hne : a ≠ d := by rintro rfl; exact ha rfl
    simpa using Memory.read_write_other x hw hne
  | send m b x => simp
  | _ => rfl

/-- Settles O24: by the effect. Only a store and a transfer in write memory, each at the destination. -/
theorem onlyDestinationCellChanges : Obligations.OnlyDestinationCellChanges := by
  intro i s t hw h
  have e := exec_effect h
  exact ⟨e.len_mem, fun a ha => e.read_mem_of_ne_destination hw ha⟩

/-! ## A stored cell is fetched by the next step (20_memory R38, R39) -/

/-- What an instruction stores does not depend on the turns. -/
theorem State.stores_turnTaken {s : State} {d v : Int} {i : Instr} : s.turnTaken.Stores d v i ↔ s.Stores d v i := by
  cases i <;> rfl

theorem Memory.read_of_updatedAt {m m' : Memory} {d v a x : Int} (hu : m.UpdatedAt m' d v)
    (hx : if a = d then x = v else m.read a = some x) : m'.read a = some x := by
  obtain ⟨-, hsame, hother⟩ := hu
  split at hx
  · rename_i ha; rw [ha, hx, hsame]
  · rename_i ha; rw [hother a ha, hx]

/-- The step of an instruction that stores `v` at `d`. -/
theorem step_of_stores {s : State} {cells : List Int} {i : Instr} {d v : Int} (hr : s.status = .running)
    (hc : s.coreIsNext = true) (hw : s.mem.wf = true) (hd : decodeCells cells = .ok (i, []))
    (h : ∀ (j : Nat) (x : Int), cells[j]? = some x → s.mem.read (s.pc + (j : Int)) = some x) (hs : s.Stores d v i) :
    ∃ t, step s = .next t ∧ s.mem.UpdatedAt t.mem d v ∧ t.status = .running ∧ t.pc = s.pc + (i.length : Int) ∧
      t.turns = s.turns.tail := by
  obtain ⟨hvalid, t, hexec, hmem, hstatus, hpc, hturns⟩ := exec_of_stores (State.stores_turnTaken.mpr hs)
  refine ⟨t, (step_of_decodeCells hr hc hd h).trans hexec, ?_, hstatus.trans hr, hpc, hturns⟩
  rw [hmem]
  exact Memory.updatedAt_write v hw hvalid

/-- Settles O29: after the store, the next step's fetch reads the updated memory, whichever of its cells is the stored
one. -/
theorem storedCellIsFetchedNext : Obligations.StoredCellIsFetchedNext := by
  intro s cells i d v hr hc hw hd h hs
  obtain ⟨t, hstep, hupdated, hrunning, hpc, hturns⟩ := step_of_stores hr hc hw hd h hs
  refine ⟨t, hstep, hupdated, hrunning, hpc, hturns, fun hnext => ⟨fun hat e he => ?_, fun next k hk hcells => ?_⟩⟩
  · have hread : t.mem.read t.pc = some v := Memory.read_of_updatedAt hupdated (by simp [hat])
    exact step_of_decodeFailure hrunning hnext hread he
  · exact step_of_decodeCells hrunning hnext hk fun j x hj => Memory.read_of_updatedAt hupdated (hcells j x hj)

end Sys2Proof.Machine

/-! SUPPORT. Proofs of the family 30_encoding: what the decoder accepts (R44 to R50), the digits it ignores (R47, R49), the
canonical encoding (R56), the length rule (R55) and the decoder's port (R51). -/

namespace Sys2Proof

/-! ## Decimal fields (30_encoding R42) -/

/-- A digit below weight `10^k` depends on the value modulo `10^k` alone. -/
theorem digit_congr {v w k j : Nat} (h : v % 10 ^ k = w % 10 ^ k) (hj : j < k) : digit v j = digit w j := by
  have hdvd : 10 ^ j * 10 ∣ 10 ^ k := pow_succ 10 j ▸ pow_dvd_pow 10 hj
  have hmod : v % (10 ^ j * 10) = w % (10 ^ j * 10) := Nat.ModEq.of_dvd hdvd h
  rw [digit, digit, ← Nat.mod_mul_right_div_self, ← Nat.mod_mul_right_div_self, hmod]

theorem selector_congr {v w k : Nat} (h : v % 10 ^ k = w % 10 ^ k) (hk : 2 ≤ k) : selector v = selector w :=
  Nat.ModEq.of_dvd (pow_dvd_pow 10 hk : 10 ^ 2 ∣ 10 ^ k) h

theorem digit_add_pow (v k : Nat) : digit (v + 10 ^ k) k = (digit v k + 1) % 10 := by
  rw [digit, digit, Nat.add_div_right _ (Nat.pow_pos (by decide)), Nat.mod_add_mod]

/-! ## Shape of an operation (30_encoding R46) -/

theorem Operation.arity_le_three (d : Operation) : d.arity ≤ 3 := by cases d <;> simp [arity]

theorem Operation.one_le_arity_of_mode1 {d : Operation} (h : d.mode1.isSome = true) : 1 ≤ d.arity := by
  cases d with
  | read | halt => cases h
  | _ => simp [arity]

theorem Operation.two_le_arity_of_mode2 {d : Operation} (h : d.mode2.isSome = true) : 2 ≤ d.arity := by
  cases d with
  | read | write | halt => cases h
  | _ => simp [arity]

/-- A destination is the last operand. -/
theorem Operation.destinationOperand_eq_arity {d : Operation} {n : Nat} (h : d.destinationOperand = some n) :
    1 ≤ n ∧ n = d.arity := by
  cases d <;> cases h <;> exact ⟨by decide, rfl⟩

/-! ## The decoder by operation instead of by selector (30_encoding R50) -/

/-- What the decoder answers for a cell `n` with the selector of `d`: `d`'s constructor, with the modes read from `n`. -/
def Operation.readAs (n : Nat) : Operation → Except DecodeError Operation
  | .add _ _ => decodeF3 n .add
  | .mul _ _ => decodeF3 n .mul
  | .read => decodeF1 n (fun _ => .read)
  | .write _ => decodeF1 n .write
  | .condJump pol _ _ => decodeF2 n (.condJump pol)
  | .lessThan _ _ => decodeF3 n .lessThan
  | .equal _ _ => decodeF3 n .equal
  | .halt => .ok .halt

theorem decodeOp_of_selector {n : Nat} {d : Operation} (h : selector n = d.selector) : decodeOp n = d.readAs n := by
  rw [decodeOp_nat, h]
  cases d with
  | condJump pol _ _ => cases pol <;> rfl
  | _ => rfl

theorem decodeOp_of_neg {v : Int} (h : v < 0) : decodeOp v = .error (.negative v) := if_pos h

theorem nonneg_of_decodeOp {v : Int} {d : Operation} (h : decodeOp v = .ok d) : 0 ≤ v :=
  Int.le_trans (by decide) (one_le_of_decodeOp h)

theorem decodeOp_of_unassigned {n : Nat} (h : selector n ∉ [1, 2, 3, 4, 5, 6, 7, 8, 99]) :
    decodeOp n = .error (.unknownOpcode (selector n)) := by
  rw [decodeOp_nat]
  split
  case h_10 => rfl
  all_goals
    rename_i hassigned
    exact absurd (by simp [hassigned]) h

/-- An assigned selector is the selector of an operation. -/
theorem exists_operation_of_selector {n : Nat} (h : n ∈ [1, 2, 3, 4, 5, 6, 7, 8, 99]) :
    ∃ d : Operation, n = d.selector := by
  simp only [List.mem_cons, List.not_mem_nil, or_false] at h
  rcases h with rfl | rfl | rfl | rfl | rfl | rfl | rfl | rfl | rfl
  exacts [⟨.add .position .position, rfl⟩, ⟨.mul .position .position, rfl⟩, ⟨.read, rfl⟩, ⟨.write .position, rfl⟩,
    ⟨.condJump true .position .position, rfl⟩, ⟨.condJump false .position .position, rfl⟩,
    ⟨.lessThan .position .position, rfl⟩, ⟨.equal .position .position, rfl⟩, ⟨.halt, rfl⟩]

/-- The answer for a selector can differ from `d` in its modes only. -/
theorem Operation.shape_of_readAs {n : Nat} {d d' : Operation} (h : d.readAs n = .ok d') :
    d'.selector = d.selector ∧ d'.arity = d.arity := by
  cases d with
  | halt => cases h; exact ⟨rfl, rfl⟩
  | read | write =>
    obtain ⟨_, _, rfl⟩ := decodeF1_eq_ok.mp h
    exact ⟨rfl, rfl⟩
  | condJump pol =>
    obtain ⟨_, _, _, _, rfl⟩ := decodeF2_eq_ok.mp h
    cases pol <;> exact ⟨rfl, rfl⟩
  | add | mul | lessThan | equal =>
    obtain ⟨_, _, _, _, _, rfl⟩ := decodeF3_eq_ok.mp h
    exact ⟨rfl, rfl⟩

theorem selector_of_decodeOp {n : Nat} {d : Operation} (h : decodeOp n = .ok d) : selector n = d.selector := by
  by_cases hs : selector n ∈ [1, 2, 3, 4, 5, 6, 7, 8, 99]
  · obtain ⟨d', hd'⟩ := exists_operation_of_selector hs
    rw [decodeOp_of_selector hd'] at h
    obtain ⟨hselector, -⟩ := Operation.shape_of_readAs h
    rw [hd', hselector]
  · rw [decodeOp_of_unassigned hs] at h
    cases h

/-! ## What the decoder accepts (30_encoding R48 to R50) -/

/-- The mode digits that R50 asks of a cell `n` that decodes to `d`. -/
def Operation.DigitsAt (n : Nat) (d : Operation) : Prop :=
  (∀ i, 1 ≤ i → i ≤ d.arity → digit n (i + 1) ≤ 1) ∧
  (∀ m, d.mode1 = some m → digit n 2 = m.digit) ∧ (∀ m, d.mode2 = some m → digit n 3 = m.digit)

theorem forall_operand_one {P : Nat → Prop} : (∀ i, 1 ≤ i → i ≤ 1 → P i) ↔ P 1 :=
  ⟨fun h => h 1 le_rfl le_rfl, fun h _ h1 hi => le_antisymm h1 hi ▸ h⟩

theorem forall_operand_succ {k : Nat} {P : Nat → Prop} :
    (∀ i, 1 ≤ i → i ≤ k + 2 → P i) ↔ (∀ i, 1 ≤ i → i ≤ k + 1 → P i) ∧ P (k + 2) := by
  constructor
  · intro h
    exact ⟨fun i h1 hi => h i h1 (by omega), h (k + 2) (by omega) le_rfl⟩
  · rintro ⟨h, hlast⟩ i h1 hi
    rcases Nat.le_succ_iff.mp hi with hi | rfl
    · exact h i h1 hi
    · exact hlast

/-- IN checks its destination's digit and drops it (R49). -/
theorem decodeF1_read {n : Nat} : decodeF1 n (fun _ => .read) = .ok .read ↔ digit n 2 ≤ 1 := by
  rw [← operandMode_isOk (i := 1)]
  simp [decodeF1_eq_ok, operandMode_eq_ok]

/-- Format F3: the digits of R50 are the two source modes and a destination digit of 0 or 1. -/
theorem Operation.digitsAt_of_arity_three {n : Nat} {d : Operation} {m1 m2 : Mode} (ha : d.arity = 3)
    (h1 : d.mode1 = some m1) (h2 : d.mode2 = some m2) :
    d.DigitsAt n ↔ digit n 2 = m1.digit ∧ digit n 3 = m2.digit ∧ digit n 4 ≤ 1 := by
  have hm1 := m1.digit_le_one
  have hm2 := m2.digit_le_one
  simp only [DigitsAt, ha, h1, h2, forall_operand_succ, forall_operand_one, Option.some.injEq, forall_eq',
    Nat.reduceAdd]
  omega

/-- Format F2: the digits of R50 are the two source modes. -/
theorem Operation.digitsAt_of_arity_two {n : Nat} {d : Operation} {m1 m2 : Mode} (ha : d.arity = 2)
    (h1 : d.mode1 = some m1) (h2 : d.mode2 = some m2) :
    d.DigitsAt n ↔ digit n 2 = m1.digit ∧ digit n 3 = m2.digit := by
  have hm1 := m1.digit_le_one
  have hm2 := m2.digit_le_one
  simp only [DigitsAt, ha, h1, h2, forall_operand_succ, forall_operand_one, Option.some.injEq, forall_eq',
    Nat.reduceAdd]
  omega

theorem Operation.digitsAt_write {n : Nat} {m1 : Mode} : (write m1).DigitsAt n ↔ digit n 2 = m1.digit := by
  have hle : digit n 2 = m1.digit → digit n 2 ≤ 1 := fun h => h ▸ m1.digit_le_one
  simpa [DigitsAt, arity, mode1, mode2, forall_operand_one] using hle

theorem Operation.digitsAt_read {n : Nat} : read.DigitsAt n ↔ digit n 2 ≤ 1 := by
  simp [DigitsAt, arity, mode1, mode2, forall_operand_one]

theorem Operation.digitsAt_halt {n : Nat} : halt.DigitsAt n :=
  ⟨fun _ h1 h0 => absurd (h1.trans h0) (by decide), nofun, nofun⟩

/-- Each digit that R50 asks about is one that the format's decoder reads. -/
theorem Operation.readAs_eq_ok {n : Nat} {d : Operation} : d.readAs n = .ok d ↔ d.DigitsAt n := by
  cases d with
  | halt => exact iff_of_true rfl digitsAt_halt
  | read =>
    rw [digitsAt_read]
    exact decodeF1_read
  | write => simp [readAs, decodeF1_eq_ok, digitsAt_write]
  | condJump =>
    rw [digitsAt_of_arity_two rfl rfl rfl]
    simp [readAs, decodeF2_eq_ok]
  | add | mul | lessThan | equal =>
    rw [digitsAt_of_arity_three rfl rfl rfl]
    simp [readAs, decodeF3_eq_ok]

theorem decodeOp_nat_eq_ok {n : Nat} {d : Operation} :
    decodeOp n = .ok d ↔ selector n = d.selector ∧ d.DigitsAt n := by
  constructor
  · intro h
    have hs := selector_of_decodeOp h
    exact ⟨hs, Operation.readAs_eq_ok.mp (decodeOp_of_selector hs ▸ h)⟩
  · rintro ⟨hs, hd⟩
    rw [decodeOp_of_selector hs, Operation.readAs_eq_ok.mpr hd]

/-- Settles O2: by the iff for a natural number, since a cell that decodes is not negative. -/
theorem decoderAcceptsExactly : Obligations.DecoderAcceptsExactly := by
  intro v d
  constructor
  · intro h
    have hv := nonneg_of_decodeOp h
    rw [decodeOp_of_nonneg hv] at h
    exact ⟨hv, decodeOp_nat_eq_ok.mp h⟩
  · rintro ⟨hv, hfields⟩
    rw [decodeOp_of_nonneg hv]
    exact decodeOp_nat_eq_ok.mpr hfields

/-! ## Decode failures (30_encoding R44, R45, R48, R49) -/

/-- Settles O4: the decoder tests the sign first. -/
theorem negativeCellIsFailure : Obligations.NegativeCellIsFailure := fun _ => decodeOp_of_neg

/-- Settles O3: the nine bare opcodes are evaluated, and any other selector is unassigned. -/
theorem opcodeMap : Obligations.OpcodeMap := by
  refine ⟨rfl, rfl, rfl, rfl, rfl, rfl, rfl, rfl, rfl, fun v hv hs => ?_⟩
  rw [decodeOp_of_nonneg hv, decodeOp_of_unassigned hs]

/-- A mode digit of 2 or more, of any operand, is a decode failure. -/
theorem decodeOp_error_of_digit {n i : Nat} {d : Operation} (hs : selector n = d.selector) (h1 : 1 ≤ i)
    (hi : i ≤ d.arity) (hdigit : 2 ≤ digit n (i + 1)) : ∃ e, decodeOp n = .error e := by
  refine (decodeOp_total n).resolve_left ?_
  rintro ⟨d', hd'⟩
  obtain ⟨-, harity⟩ := Operation.shape_of_readAs (decodeOp_of_selector hs ▸ hd')
  obtain ⟨-, hle, -, -⟩ := decodeOp_nat_eq_ok.mp hd'
  have := hle i h1 (harity ▸ hi)
  omega

/-- Settles O6: a source is one of the operands, and the digit of each operand is checked. -/
theorem sourceDigitTwoToNineFails : Obligations.SourceDigitTwoToNineFails := fun _ _ hs =>
  ⟨fun h1 => decodeOp_error_of_digit hs le_rfl (Operation.one_le_arity_of_mode1 h1),
    fun h2 => decodeOp_error_of_digit hs (by decide) (Operation.two_le_arity_of_mode2 h2)⟩

/-! ## Digits that are ignored (30_encoding R47, R49) -/

/-- Settles O5: every digit that R50 asks about stands below weight `10^(2+n)`. -/
theorem highDigitsIgnored : Obligations.HighDigitsIgnored := by
  intro v w d hd hlow
  obtain ⟨hs, hle, hm1, hm2⟩ := decodeOp_nat_eq_ok.mp hd
  have hdigit : ∀ i, i ≤ d.arity → digit w (i + 1) = digit v (i + 1) := fun i hi => digit_congr hlow (by omega)
  have hselector : selector w = d.selector := (selector_congr hlow (by omega)).trans hs
  refine decodeOp_nat_eq_ok.mpr ⟨hselector, fun i h1 hi => ?_, fun m hm => ?_, fun m hm => ?_⟩
  · rw [hdigit i hi]
    exact hle i h1 hi
  · rw [hdigit 1 (Operation.one_le_arity_of_mode1 (by simp [hm]))]
    exact hm1 m hm
  · rw [hdigit 2 (Operation.two_le_arity_of_mode2 (by simp [hm]))]
    exact hm2 m hm

theorem operandMode_congr {v w i : Nat} (h : digit v (i + 1) = digit w (i + 1)) : operandMode v i = operandMode w i := by
  rw [operandMode, operandMode, h]

/-- With a destination digit of 0 or 1, format F3 reads its two sources as format F2 does. -/
theorem decodeF3_eq_decodeF2 {v : Nat} (h : digit v 4 ≤ 1) (mk : Mode → Mode → Operation) :
    decodeF3 v mk = decodeF2 v mk := by
  obtain ⟨m3, h3⟩ := operandMode_isOk (i := 3).mpr h
  unfold decodeF3 decodeF2
  rw [h3]
  cases operandMode v 1 <;> cases operandMode v 2 <;> rfl

theorem decodeF3_congr {v w : Nat} (h2 : digit v 2 = digit w 2) (h3 : digit v 3 = digit w 3) (hv : digit v 4 ≤ 1)
    (hw : digit w 4 ≤ 1) (mk : Mode → Mode → Operation) : decodeF3 v mk = decodeF3 w mk := by
  rw [decodeF3_eq_decodeF2 hv, decodeF3_eq_decodeF2 hw, decodeF2, decodeF2, operandMode_congr h2, operandMode_congr h3]

/-- Two cells that differ in no digit below the destination's, and whose destination digits are 0 or 1, are read alike,
decode failures included. -/
theorem Operation.readAs_congr {v w n : Nat} {d : Operation} (hn : d.destinationOperand = some n)
    (hlow : ∀ k, k < n + 1 → digit v k = digit w k) (hv : digit v (n + 1) ≤ 1) (hw : digit w (n + 1) ≤ 1) :
    d.readAs v = d.readAs w := by
  cases d with
  | write | condJump | halt => cases hn
  | read =>
    cases hn
    exact (decodeF1_read.mpr hv).trans (decodeF1_read.mpr hw).symm
  | add | mul | lessThan | equal =>
    cases hn
    exact decodeF3_congr (hlow 2 (by decide)) (hlow 3 (by decide)) hv hw _

/-- Settles O7: adding 1 to the destination's digit 0 changes no digit below it; any operand's digit of 2 or more fails. -/
theorem destinationDigitIgnored : Obligations.DestinationDigitIgnored := by
  intro v n d hs hn
  obtain ⟨h1, hlast⟩ := Operation.destinationOperand_eq_arity hn
  refine ⟨fun hzero => ?_, decodeOp_error_of_digit hs h1 hlast.le⟩
  have hmod : (v + 10 ^ (n + 1)) % 10 ^ (n + 1) = v % 10 ^ (n + 1) := Nat.add_mod_right ..
  have hone : digit (v + 10 ^ (n + 1)) (n + 1) = 1 := by rw [digit_add_pow, hzero]
  rw [decodeOp_of_selector hs, decodeOp_of_selector ((selector_congr hmod (by omega)).trans hs)]
  exact Operation.readAs_congr hn (fun k hk => digit_congr hmod hk) (by omega) (by omega)

/-! ## Encoding and decoding (30_encoding R41, R56) -/

/-- The canonical opcode cells are finitely many closed numbers; the decoder is evaluated on each. -/
theorem decodeOp_opcode (d : Operation) : decodeOp d.opcode = .ok d := by
  cases d with
  | read | halt => rfl
  | write m1 => cases m1 <;> rfl
  | condJump pol m1 m2 => cases pol <;> cases m1 <;> cases m2 <;> rfl
  | _ m1 m2 => cases m1 <;> cases m2 <;> rfl

theorem Operation.takeOperands_operands (i : Instr) (rest : List Int) :
    i.operation.takeOperands (i.operands ++ rest) = .ok (i, rest) := by
  cases i <;> rfl

theorem decodeCells_of_decodeOp {v : Int} {d : Operation} (h : decodeOp v = .ok d) (cells : List Int) :
    decodeCells (v :: cells) = d.takeOperands cells := by
  simp only [decodeCells, h]

/-- Settles O1: the canonical opcode cell decodes to the operation, which then takes the operand cells back. -/
theorem decodeInvertsEncode : Obligations.DecodeInvertsEncode := by
  intro i rest
  calc decodeCells (encode i ++ rest)
      = i.operation.takeOperands (i.operands ++ rest) := decodeCells_of_decodeOp (decodeOp_opcode _) _
    _ = .ok (i, rest) := Operation.takeOperands_operands i rest

/-- Settles O9: nine closed lists of cells, each evaluated. -/
theorem sampleCellsDecode : Obligations.SampleCellsDecode := by
  unfold Obligations.SampleCellsDecode
  decide

/-! ## The length rule and the decoder's port (30_encoding R51, R55) -/

theorem lengthAt_of_ok {v : Int} {d : Operation} (h : decodeOp v = .ok d) : lengthAt v = 1 + d.arity := by
  rw [lengthAt, h]

theorem lengthAt_of_error {v : Int} {e : DecodeError} (h : decodeOp v = .error e) : lengthAt v = 1 := by
  rw [lengthAt, h]

/-- Settles O8: by the two cases of the length rule; the nine lengths are evaluated. -/
theorem lengthRule : Obligations.LengthRule :=
  ⟨fun _ _ => lengthAt_of_ok, fun _ _ => lengthAt_of_error, fun _ _ _ _ _ => ⟨rfl, rfl, rfl, rfl⟩,
    fun _ _ _ _ => ⟨rfl, rfl⟩, fun _ _ => ⟨rfl, rfl⟩, rfl⟩

end Sys2Proof

namespace Sys2Proof.Machine

theorem decoderPort_of_ok {v : Int} {d : Operation} (h : decodeOp v = .ok d) :
    decoderPort v =
      { valid := true
        kind := some (decKind d)
        pol := decPolarity d
        m1 := d.mode1.map modeBit
        m2 := d.mode2.map modeBit
        len := BitVec.ofNat 3 (1 + d.arity) } := by
  rw [decoderPort, h]

theorem decoderPort_of_error {v : Int} {e : DecodeError} (h : decodeOp v = .error e) :
    decoderPort v = { valid := false, kind := none, pol := none, m1 := none, m2 := none, len := 1 } := by
  rw [decoderPort, h]

theorem decoderPort_valid {v : Int} : (decoderPort v).valid = true ↔ ∃ d, decodeOp v = .ok d := by
  rcases decodeOp_total v with ⟨d, h⟩ | ⟨e, h⟩
  · simp [decoderPort_of_ok h, h]
  · simp [decoderPort_of_error h, h]

/-- A length of at most 4 fits the 3 bits of `dec_len`. -/
theorem decoderPort_len (v : Int) : (decoderPort v).len.toNat = lengthAt v := by
  rcases decodeOp_total v with ⟨d, h⟩ | ⟨e, h⟩
  · have := d.arity_le_three
    rw [decoderPort_of_ok h, lengthAt_of_ok h, BitVec.toNat_ofNat, Nat.mod_eq_of_lt (by omega)]
  · rw [decoderPort_of_error h, lengthAt_of_error h]
    rfl

/-- Settles O10: the fields are read off the port of a decoded cell. -/
theorem decoderPortFields : Obligations.DecoderPortFields := by
  refine ⟨fun v => ⟨decoderPort_valid, decoderPort_len v⟩, fun v d h => ?_, fun v m1 m2 => ?_⟩
  · rw [decoderPort_of_ok h]
    exact ⟨rfl, rfl⟩
  · have kind : ∀ {d}, decodeOp v = .ok d → (decoderPort v).kind = some (decKind d) :=
      fun h => by rw [decoderPort_of_ok h]
    have pol : ∀ {d}, decodeOp v = .ok d → (decoderPort v).pol = decPolarity d :=
      fun h => by rw [decoderPort_of_ok h]
    exact ⟨kind, kind, kind, kind, fun p h => ⟨kind h, pol h⟩, kind, kind, kind⟩

end Sys2Proof.Machine

/-! SUPPORT. Proofs of the family 40_decode_execute: the step of a Running machine by what its fetch finds (R57 to R60), what a
fault leaves as it is and the ports that show it (R62; 60_exceptions R102, R105), and the turns of a machine that is Halted
(R64), Faulted (R65) or blocked (R67). -/

namespace Sys2Proof.Machine

/-! ## A fault changes the status and the trace (R62, 60_exceptions R105) -/

/-- Only taking a fault leaves the status Faulted: HLT leaves it Halted, and every other effect leaves it Running. -/
theorem Effect.eq_raise_of_faulted {s t : State} {i : Instr} {f : Fault} (e : Effect s i t) (hr : s.status = .running)
    (hf : t.status = .faulted f) : t = s.raise f := by
  cases e with
  | fault _ g => cases hf; rfl
  | halt => cases hf
  | _ => simp [hr] at hf

/-! ## The status ports (60_exceptions R102) -/

theorem State.faultInfo_eq_some {s : State} {f : Fault} : s.faultInfo = some f ↔ s.status = .faulted f := by
  unfold State.faultInfo
  split <;> simp_all

theorem State.faultInfo_eq_none {s : State} : s.faultInfo = none ↔ ∀ f, s.status ≠ .faulted f := by
  simp [Option.eq_none_iff_forall_ne_some, State.faultInfo_eq_some]

theorem State.haltedPort_iff {s : State} : s.haltedPort = true ↔ s.status = .halted := decide_eq_true_iff

/-- Settles O23: the effect that leaves Faulted is the fault's entry, and every status port is a function of
`fault_info` or of the status. -/
theorem faultLeavesAllElse : Obligations.FaultLeavesAllElse := by
  refine ⟨fun i s t f hr h hf => (exec_effect h).eq_raise_of_faulted hr hf, fun s f hf => ?_, fun s hs => ?_⟩
  · have hinfo : s.faultInfo = some f := State.faultInfo_eq_some.mpr hf
    have hhalted : s.haltedPort = false := by simp [State.haltedPort, hf]
    refine ⟨by simp [State.faultedPort, hinfo], hhalted, hinfo, ?_⟩
    rw [State.faultCode, hinfo]
    cases f <;> rfl
  · have hinfo : s.faultInfo = none := State.faultInfo_eq_none.mpr hs
    exact ⟨by simp [State.faultedPort, hinfo], hinfo, by simp [State.faultCode, hinfo], State.haltedPort_iff⟩

/-! ## Fetch, decode and operand fetch (R57 to R60) -/

/-- Settles O28: the fetch finds the decoded instruction, and the core's turn is its `exec`. -/
theorem stepRunsDecodedInstruction : Obligations.StepRunsDecodedInstruction :=
  fun _ _ _ hr hc hd h => step_of_decodeCells hr hc hd h

theorem step_of_outside {s : State} {f : Fault} (hc : s.coreIsNext = true) (hr : s.status = .running)
    (hf : s.fetch = .outside f) : step s = .next (s.turnTaken.raise f) := by
  rw [step_of_running hc hr, engineStep, State.fetch_turnTaken, hf]

/-- Settles O30: the fetch of the opcode cell is what fails. -/
theorem fetchOutsideFaults : Obligations.FetchOutsideFaults :=
  fun _ hr hc h => step_of_outside hc hr (State.fetch_outside h)

theorem State.decodeFailure_of_fault {s : State} (h : s.cfg.decodePolicy = .fault) (v : Int) :
    s.decodeFailure v = s.raise (.invalidOpcode s.pc v) := by
  rw [State.decodeFailure, h]

theorem State.decodeFailure_of_skip {s : State} (h : s.cfg.decodePolicy = .skip) (v : Int) :
    s.decodeFailure v = (s.emit (.decodeError s.pc v)).advance 1 := by
  rw [State.decodeFailure, h]

/-- Settles O32: the step is the decode failure's, which the policy alone decides. -/
theorem decodeFailureByPolicy : Obligations.DecodeFailureByPolicy := by
  intro s v e hr hc hv he
  rw [step_of_decodeFailure hr hc hv he]
  constructor
  · intro hp
    rw [State.decodeFailure_of_fault (s := s.turnTaken) hp, State.pc_turnTaken]
  · intro hp
    rw [State.decodeFailure_of_skip (s := s.turnTaken) hp]
    rfl

/-! ## The first operand cell that cannot be read (R60) -/

section FirstOperandFault

/-- Operand cell `n` is the first that cannot be read, and reading it is the fault `f`. -/
structure State.FirstOperandFault (s : State) (n : Nat) (f : Fault) : Prop where
  pos : 1 ≤ n
  before : ∀ j, 1 ≤ j → j < n → ∃ x, s.operand j = .ok x
  fault : s.operand n = .error f

variable {s : State} {n : Nat} {f : Fault}

theorem State.firstOperandFault_of_outside (h1 : 1 ≤ n)
    (hbefore : ∀ j : Nat, 1 ≤ j → j < n → s.mem.Valid (s.pc + (j : Int))) (h : ¬ s.mem.Valid (s.pc + (n : Int))) :
    s.FirstOperandFault n (.addressOutOfRange s.pc (s.pc + (n : Int)) .operand) where
  pos := h1
  before j hj hjn := ⟨_, State.memRead_of_read (Memory.read_of_valid (hbefore j hj hjn))⟩
  fault := State.memRead_outside h

theorem State.FirstOperandFault.fetch1 (h : s.FirstOperandFault n f) (hn : n ≤ 1) (mk : Int → Instr) :
    s.fetch1 mk = .error f := by
  obtain ⟨h1, -, hf⟩ := h
  obtain rfl : n = 1 := by omega
  simp [State.fetch1, hf]

theorem State.FirstOperandFault.fetch2 (h : s.FirstOperandFault n f) (hn : n ≤ 2) (mk : Int → Int → Instr) :
    s.fetch2 mk = .error f := by
  obtain ⟨h1, hbefore, hf⟩ := h
  obtain rfl | rfl : n = 1 ∨ n = 2 := by omega
  · simp [State.fetch2, hf]
  · obtain ⟨a, ha⟩ := hbefore 1 (by omega) (by omega)
    simp [State.fetch2, ha, hf]

theorem State.FirstOperandFault.fetch3 (h : s.FirstOperandFault n f) (hn : n ≤ 3) (mk : Int → Int → Int → Instr) :
    s.fetch3 mk = .error f := by
  obtain ⟨h1, hbefore, hf⟩ := h
  obtain rfl | rfl | rfl : n = 1 ∨ n = 2 ∨ n = 3 := by omega
  · simp [State.fetch3, hf]
  · obtain ⟨a, ha⟩ := hbefore 1 (by omega) (by omega)
    simp [State.fetch3, ha, hf]
  · obtain ⟨a, ha⟩ := hbefore 1 (by omega) (by omega)
    obtain ⟨b, hb⟩ := hbefore 2 (by omega) (by omega)
    simp [State.fetch3, ha, hb, hf]

/-- The operand fetch takes the fault of the first operand cell that it cannot read, whatever the operation. -/
theorem State.FirstOperandFault.fetchOperands (h : s.FirstOperandFault n f) {d : Operation} (hn : n ≤ d.arity) :
    s.fetchOperands d = .error f := by
  cases d with
  | halt => exact absurd (h.pos.trans hn) (by decide)
  | read | write => exact h.fetch1 hn _
  | condJump pol => cases pol <;> exact h.fetch2 hn _
  | add | mul | lessThan | equal => exact h.fetch3 hn _

end FirstOperandFault

/-- Settles O31: the operand fetch takes the fault of operand cell `n`, so the machine's fetch does. -/
theorem operandCellOutsideFaults : Obligations.OperandCellOutsideFaults := by
  intro s v d n hr hc hv hd h1 hn hbefore h
  have hop := (State.firstOperandFault_of_outside h1 hbefore h).fetchOperands hn
  exact step_of_outside hc hr (by rw [State.fetch_of_cell hv hd, hop])

/-! ## The turn of a machine that is Halted, Faulted or blocked (R64, R65, R67) -/

/-- Settles O33: the core's turn of a Halted machine that is no stage of the arbiter. -/
theorem haltedStepIsNoOp : Obligations.HaltedStepIsNoOp := by
  intro s hs hb hc
  rw [step_of_core hc, coreTurn, State.status_turnTaken, hs]
  simp [hb]

/-- Settles O34: the core's turn of a Faulted machine that is no stage of the arbiter. -/
theorem faultedMachineHasNoStep : Obligations.FaultedMachineHasNoStep := by
  intro s f hs hb hc
  rw [step_of_core hc, coreTurn, State.status_turnTaken, hs]
  simp [hb]

/-- Blocked on input (10_state R21): at an IN whose destination check passed, connected, and no peer offers. -/
theorem State.blockedOnInput_iff {s : State} : s.blockedOnInput = true ↔
    ∃ a, s.current = some (.inp a) ∧ s.mem.Valid a ∧ s.inConn = true ∧ s.peerOffer = none := by
  rw [State.blockedOnInput, Bool.and_eq_true, Option.isNone_iff_eq_none, State.inReady_iff]
  constructor
  · rintro ⟨⟨a, hcur, hv, hconn⟩, hp⟩
    exact ⟨a, hcur, hv, hconn, hp⟩
  · rintro ⟨a, hcur, hv, hconn, hp⟩
    exact ⟨⟨a, hcur, hv, hconn⟩, hp⟩

/-- Blocked on output (10_state R21): at an OUT whose source resolved, connected, and no peer accepts. -/
theorem State.blockedOnOutput_iff {s : State} : s.blockedOnOutput = true ↔
    ∃ m a x, s.current = some (.out m a) ∧ s.source m a = some x ∧ s.outConn = true ∧ s.peerReady = false := by
  simp only [State.blockedOnOutput, State.outValid, Bool.and_eq_true, Bool.not_eq_true', Option.isSome_iff_exists,
    State.outData_eq_some]
  constructor
  · rintro ⟨⟨x, m, a, hcur, hx, hconn⟩, hp⟩
    exact ⟨m, a, x, hcur, hx, hconn, hp⟩
  · rintro ⟨m, a, x, hcur, hx, hconn, hp⟩
    exact ⟨⟨x, m, a, hcur, hx, hconn⟩, hp⟩

/-- Settles O35: a blocked machine is at an IN or an OUT that waits, and its `exec` answers the state it was given. -/
theorem blockedMachineWaits : Obligations.BlockedMachineWaits := by
  rintro s hc (h | h)
  · obtain ⟨a, hcur, hv, hconn, hp⟩ := State.blockedOnInput_iff.mp h
    obtain ⟨hr, hf⟩ := State.current_eq_some.mp hcur
    exact (step_of_instr hc hr hf).trans (exec_in_waits hv hconn hp)
  · obtain ⟨m, a, x, hcur, hx, hconn, hp⟩ := State.blockedOnOutput_iff.mp h
    obtain ⟨hr, hf⟩ := State.current_eq_some.mp hcur
    exact (step_of_instr hc hr hf).trans (exec_out_waits hx hconn hp)

end Sys2Proof.Machine

/-! SUPPORT. Proofs of the family 41_arithmetic: ADD and MUL by the rule that they share (R70, R71), and that no other
instruction raises ArithmeticOverflow (R72). -/

namespace Sys2Proof

/-! ## The opcode cells of two sources and a destination (30_encoding R46, R47, R49, R56) -/

theorem Operation.selector_lt (d : Operation) : d.selector < 100 := by
  cases d with
  | condJump pol => cases pol <;> simp [selector]
  | _ => simp [selector]

/-- Format F3: the selector and the two source digits decide, whatever stands at the destination's digit, 0 or 1, and above
it. -/
theorem decodeOp_of_arity_three {d : Operation} {m1 m2 : Mode} (ha : d.arity = 3) (h1 : d.mode1 = some m1)
    (h2 : d.mode2 = some m2) {e : Nat} (he : e ≤ 1) (k : Nat) :
    decodeOp ((d.selector + 100 * m1.digit + 1000 * m2.digit + 10000 * e + 100000 * k : Nat) : Int) = .ok d := by
  have hs := d.selector_lt
  have hm1 := m1.digit_le_one
  have hm2 := m2.digit_le_one
  rw [decodeOp_nat_eq_ok, Operation.digitsAt_of_arity_three ha h1 h2]
  simp only [selector, digit]
  omega

theorem Operation.opcode_of_two_sources {d : Operation} {m1 m2 : Mode}
    (h : d.modeDigits = 100 * m1.digit + 1000 * m2.digit) :
    d.opcode = (d.selector : Int) + 100 * (m1.digit : Int) + 1000 * (m2.digit : Int) := by
  rw [opcode, h]
  omega

end Sys2Proof

namespace Sys2Proof.Machine

/-! ## The meaning that ADD, MUL, LT and EQ share

Two sources, the destination's check, and the value `e` of the two source values stored at the destination, in the order of
40_decode_execute R63. -/

section Binary

/-- The common body of `execAdd`, `execMul`, `execLt` and `execEq`. -/
def State.binary (s : State) (m1 m2 : Mode) (a b c : Int) (e : Int → Int → Except Fault Int) : Except Fault State := do
  let x ← s.val m1 a
  let y ← s.val m2 b
  let d ← s.dst c
  let r ← e x y
  return (s.memWrite d r).advance 4

theorem exec_add (m1 m2 : Mode) (a b c : Int) (s : State) :
    exec (.add m1 m2 a b c) s = s.complete (s.binary m1 m2 a b c fun x y => s.integerLaw .add x y (x + y)) := rfl

theorem exec_mul (m1 m2 : Mode) (a b c : Int) (s : State) :
    exec (.mul m1 m2 a b c) s = s.complete (s.binary m1 m2 a b c fun x y => s.integerLaw .mul x y (x * y)) := rfl

theorem exec_lt (m1 m2 : Mode) (a b c : Int) (s : State) :
    exec (.lt m1 m2 a b c) s = s.complete (s.binary m1 m2 a b c fun x y => .ok (b2c (decide (x < y)))) := rfl

theorem exec_eq (m1 m2 : Mode) (a b c : Int) (s : State) :
    exec (.eq m1 m2 a b c) s = s.complete (s.binary m1 m2 a b c fun x y => .ok (b2c (decide (x = y)))) := rfl

variable {s t : State} {m1 m2 : Mode} {a b c x y : Int} {e : Int → Int → Except Fault Int} {f : Fault}

theorem State.binary_of_no_first (hx : s.source m1 a = none) :
    s.binary m1 m2 a b c e = .error (.addressOutOfRange s.pc a .load) := by
  simp [State.binary, State.val_of_no_source hx]

theorem State.binary_of_no_second (hx : s.source m1 a = some x) (hy : s.source m2 b = none) :
    s.binary m1 m2 a b c e = .error (.addressOutOfRange s.pc b .load) := by
  simp [State.binary, State.val_of_source hx, State.val_of_no_source hy]

theorem State.binary_of_no_destination (hx : s.source m1 a = some x) (hy : s.source m2 b = some y)
    (hc : ¬ s.mem.Valid c) : s.binary m1 m2 a b c e = .error (.addressOutOfRange s.pc c .store) := by
  simp [State.binary, State.val_of_source hx, State.val_of_source hy, State.dst_of_not_valid hc]

/-- With both sources and the destination, all that is left is the value and its store. -/
theorem State.binary_of_operands (hx : s.source m1 a = some x) (hy : s.source m2 b = some y) (hc : s.mem.Valid c) :
    s.binary m1 m2 a b c e = (e x y).map fun r => (s.memWrite c r).advance 4 := by
  simp only [State.binary, State.val_of_source hx, State.val_of_source hy, State.dst_of_valid hc, except_ok_bind]
  cases e x y <;> rfl

theorem State.binary_eq_ok (h : s.binary m1 m2 a b c e = .ok t) : ∃ d r, t = (s.memWrite d r).advance 4 := by
  simp only [State.binary, except_bind_eq_ok] at h
  obtain ⟨-, -, -, -, d, -, r, -, h⟩ := h
  cases h
  exact ⟨d, r, rfl⟩

/-- The faults of the shared meaning: an address out of range, or the fault of the value. -/
theorem State.binary_eq_error (h : s.binary m1 m2 a b c e = .error f) :
    (∃ z k, f = .addressOutOfRange s.pc z k) ∨
    ∃ x y, s.source m1 a = some x ∧ s.source m2 b = some y ∧ e x y = .error f := by
  simp only [State.binary, except_bind_eq_error, State.val_eq_ok] at h
  rcases h with h | ⟨x, hx, h | ⟨y, hy, h | ⟨d, -, h | ⟨r, -, h⟩⟩⟩⟩
  · exact .inl ⟨_, _, State.val_error h⟩
  · exact .inl ⟨_, _, State.val_error h⟩
  · exact .inl ⟨_, _, State.dst_error h⟩
  · exact .inr ⟨x, y, hx, hy, h⟩
  · cases h

/-- The value, once there is one, is stored, and nothing but the destination cell and the program counter changes. -/
theorem State.complete_binary_stores {r : Int} (hx : s.source m1 a = some x) (hy : s.source m2 b = some y)
    (hw : s.mem.wf = true) (hc : s.mem.Valid c) (hr : e x y = .ok r) :
    ∃ t, s.complete (s.binary m1 m2 a b c e) = .next t ∧ s.mem.UpdatedAt t.mem c r ∧
      t = { s with mem := t.mem, pc := s.pc + 4 } := by
  refine ⟨(s.memWrite c r).advance 4, ?_, Memory.updatedAt_write r hw hc, rfl⟩
  rw [State.binary_of_operands hx hy hc, hr]
  rfl

end Binary

/-! ## ADD and MUL (R70, R71) -/

/-- The faults, the result and the frame that R70 and R71 share: `g x y` is the exact result of `op`. -/
theorem State.arithmetic_rule (s : State) (m1 m2 : Mode) (a b c : Int) (op : ArithOp) (g : Int → Int → Int) :
    let run := s.complete (s.binary m1 m2 a b c fun x y => s.integerLaw op x y (g x y))
    (s.source m1 a = none → run = .next (s.raise (.addressOutOfRange s.pc a .load))) ∧
    ∀ x, s.source m1 a = some x →
      (s.source m2 b = none → run = .next (s.raise (.addressOutOfRange s.pc b .load))) ∧
      ∀ y, s.source m2 b = some y →
        (¬ s.mem.Valid c → run = .next (s.raise (.addressOutOfRange s.pc c .store))) ∧
        (s.mem.Valid c → ¬ inRange s.cfg.width (g x y) → s.cfg.overflowPolicy = .fault →
          run = .next (s.raise (.arithmeticOverflow s.pc op x y))) ∧
        (s.mem.wf = true → s.mem.Valid c → ¬ inRange s.cfg.width (g x y) → s.cfg.overflowPolicy = .wrap →
          ∃ t, run = .next t ∧ s.mem.UpdatedAt t.mem c (wrap s.cfg.width (g x y)) ∧
            t = { s with mem := t.mem, pc := s.pc + 4 }) ∧
        (s.mem.wf = true → s.mem.Valid c → inRange s.cfg.width (g x y) →
          ∃ t, run = .next t ∧ s.mem.UpdatedAt t.mem c (g x y) ∧ t = { s with mem := t.mem, pc := s.pc + 4 }) := by
  refine ⟨fun hx => ?_, fun x hx => ⟨fun hy => ?_, fun y hy => ⟨fun hc => ?_, fun hc hr hp => ?_, ?_, ?_⟩⟩⟩
  · rw [State.binary_of_no_first hx, State.complete_error]
  · rw [State.binary_of_no_second hx hy, State.complete_error]
  · rw [State.binary_of_no_destination hx hy hc, State.complete_error]
  · rw [State.binary_of_operands hx hy hc, State.integerLaw_fault hr hp]
    rfl
  · exact fun hw hc hr hp => State.complete_binary_stores hx hy hw hc (State.integerLaw_wrap hr hp)
  · exact fun hw hc hr => State.complete_binary_stores hx hy hw hc (State.integerLaw_of_inRange hr)

/-- Settles O12: the cells are those of format F3 with the selector 1, and the rest is the shared rule for the sum. -/
theorem addFollowsItsRule : Obligations.AddFollowsItsRule := by
  intro s m1 m2 a b c
  have hopcode := Operation.opcode_of_two_sources (d := .add m1 m2) rfl
  exact ⟨congrArg (· :: [a, b, c]) hopcode, fun e k he => decodeOp_of_arity_three (d := .add m1 m2) rfl rfl rfl he k,
    s.arithmetic_rule m1 m2 a b c .add (· + ·)⟩

/-- Settles O13: as O12, with the selector 2 and the product. -/
theorem mulFollowsItsRule : Obligations.MulFollowsItsRule := by
  intro s m1 m2 a b c
  have hopcode := Operation.opcode_of_two_sources (d := .mul m1 m2) rfl
  exact ⟨congrArg (· :: [a, b, c]) hopcode, fun e k he => decodeOp_of_arity_three (d := .mul m1 m2) rfl rfl rfl he k,
    s.arithmetic_rule m1 m2 a b c .mul (· * ·)⟩

/-! ## The faults of IN, OUT, JT and JF (42_io_channels R73, R74; 43_conditional_jump R85) -/

theorem exec_in_outside {s : State} {a : Int} (hv : ¬ s.mem.Valid a) :
    exec (.inp a) s = .next (s.raise (.addressOutOfRange s.pc a .store)) := by
  simp [exec, execIn, State.dst_of_not_valid hv]

theorem exec_in_disconnected {s : State} {a : Int} (hv : s.mem.Valid a) (hc : s.inConn = false) :
    exec (.inp a) s = .next (s.raise (.channelDisconnected s.pc .inbound)) := by
  simp [exec, execIn, State.dst_of_valid hv, hc]

theorem exec_out_no_source {s : State} {m : Mode} {a : Int} (hs : s.source m a = none) :
    exec (.out m a) s = .next (s.raise (.addressOutOfRange s.pc a .load)) := by
  simp [exec, execOut, State.val_of_no_source hs]

theorem exec_out_disconnected {s : State} {m : Mode} {a x : Int} (hs : s.source m a = some x) (hc : s.outConn = false) :
    exec (.out m a) s = .next (s.raise (.channelDisconnected s.pc .outbound)) := by
  simp [exec, execOut, State.val_of_source hs, hc]

/-- The only fault of a conditional jump is that of a source. -/
theorem State.condJump_eq_error {s : State} {pol : Bool} {m1 m2 : Mode} {a b : Int} {f : Fault}
    (h : s.condJump pol m1 m2 a b = .error f) : ∃ z, f = .addressOutOfRange s.pc z .load := by
  rcases except_bind_eq_error.mp h with h | ⟨p, -, h⟩
  · exact ⟨a, State.val_error h⟩
  · split at h
    · rcases except_bind_eq_error.mp h with h | ⟨u, -, h⟩
      · exact ⟨b, State.val_error h⟩
      · cases h
    · cases h

/-! ## Which instruction overflows (R72; 60_exceptions R102) -/

theorem State.integerLaw_eq_error {s : State} {op : ArithOp} {a b r : Int} {f : Fault}
    (h : s.integerLaw op a b r = .error f) :
    ¬ inRange s.cfg.width r ∧ s.cfg.overflowPolicy = .fault ∧ f = .arithmeticOverflow s.pc op a b := by
  by_cases hr : inRange s.cfg.width r
  · rw [State.integerLaw_of_inRange hr] at h
    cases h
  · cases hp : s.cfg.overflowPolicy with
    | fault =>
      rw [State.integerLaw_fault hr hp] at h
      cases h
      exact ⟨hr, rfl, rfl⟩
    | wrap =>
      rw [State.integerLaw_wrap hr hp] at h
      cases h

section Overflow

variable {s t : State} {p x y : Int} {op : ArithOp}

/-- The status is Faulted after an instruction whose effects leave it Running: the instruction took the fault. -/
theorem State.eq_error_of_complete {r : Except Fault State} {f : Fault} (h : s.complete r = .next t)
    (hf : t.status = .faulted f) (hok : ∀ u, r = .ok u → u.status = .running) : r = .error f := by
  rcases State.complete_eq_next.mp h with h | ⟨g, hg, rfl⟩
  · exact nomatch (hok t h).symm.trans hf
  · cases hf
    exact hg

theorem State.overflow_of_binary {m1 m2 : Mode} {a b c : Int} {e : Int → Int → Except Fault Int}
    (hr : s.status = .running) (h : s.complete (s.binary m1 m2 a b c e) = .next t)
    (hf : t.status = .faulted (.arithmeticOverflow p op x y)) :
    ∃ u v, s.source m1 a = some u ∧ s.source m2 b = some v ∧ e u v = .error (.arithmeticOverflow p op x y) := by
  have herror := State.eq_error_of_complete h hf fun u hu => by
    obtain ⟨d, r, rfl⟩ := State.binary_eq_ok hu
    exact hr
  rcases State.binary_eq_error herror with ⟨z, k, hz⟩ | hlaw
  · cases hz
  · exact hlaw

/-- An overflow under the integer law: the record's values are the sources', and their exact result is no cell. -/
theorem State.overflow_of_integerLaw {m1 m2 : Mode} {a b c : Int} {op' : ArithOp} {g : Int → Int → Int}
    (hr : s.status = .running)
    (h : s.complete (s.binary m1 m2 a b c fun u v => s.integerLaw op' u v (g u v)) = .next t)
    (hf : t.status = .faulted (.arithmeticOverflow p op x y)) :
    s.cfg.overflowPolicy = .fault ∧ p = s.pc ∧ s.source m1 a = some x ∧ s.source m2 b = some y ∧ op = op' ∧
      ¬ inRange s.cfg.width (g x y) := by
  obtain ⟨u, v, hu, hv, hlaw⟩ := State.overflow_of_binary hr h hf
  obtain ⟨hout, hpolicy, hrecord⟩ := State.integerLaw_eq_error hlaw
  cases hrecord
  exact ⟨hpolicy, rfl, hu, hv, rfl, hout⟩

theorem State.condJump_no_overflow {pol : Bool} {m1 m2 : Mode} {a b : Int} (hr : s.status = .running)
    (h : s.complete (s.condJump pol m1 m2 a b) = .next t) : t.status ≠ .faulted (.arithmeticOverflow p op x y) := by
  intro hf
  have herror := State.eq_error_of_complete h hf fun u hu => by
    rcases State.condJump_eq_ok hu with rfl | ⟨_, _, -, -, -, rfl⟩ <;> exact hr
  obtain ⟨z, hz⟩ := State.condJump_eq_error herror
  cases hz

theorem exec_in_no_overflow {a : Int} (hr : s.status = .running) (h : exec (.inp a) s = .next t) :
    t.status ≠ .faulted (.arithmeticOverflow p op x y) := by
  by_cases hv : s.mem.Valid a
  · cases hc : s.inConn with
    | false =>
      cases (exec_in_disconnected hv hc).symm.trans h
      simp
    | true =>
      cases hp : s.peerOffer with
      | none =>
        cases (exec_in_waits hv hc hp).symm.trans h
        simp [hr]
      | some v =>
        cases (exec_in_takes hv hc hp).symm.trans h
        simp [hr]
  · cases (exec_in_outside hv).symm.trans h
    simp

theorem exec_out_no_overflow {m : Mode} {a : Int} (hr : s.status = .running) (h : exec (.out m a) s = .next t) :
    t.status ≠ .faulted (.arithmeticOverflow p op x y) := by
  cases hs : s.source m a with
  | none =>
    cases (exec_out_no_source hs).symm.trans h
    simp
  | some v =>
    cases hc : s.outConn with
    | false =>
      cases (exec_out_disconnected hs hc).symm.trans h
      simp
    | true =>
      cases hp : s.peerReady with
      | false =>
        cases (exec_out_waits hs hc hp).symm.trans h
        simp [hr]
      | true =>
        cases (exec_out_sends hs hc hp).symm.trans h
        simp [hr]

end Overflow

/-- Settles O14: ADD and MUL overflow by the integer law alone; the value of LT and EQ is always there, and the other
instructions have other faults. -/
theorem overflowOnlyFromAddAndMul : Obligations.OverflowOnlyFromAddAndMul := by
  intro i s t p op x y hr h hf
  cases i with
  | add m1 m2 a b c =>
    obtain ⟨hpolicy, hpc, hx, hy, hop, hout⟩ := State.overflow_of_integerLaw hr (exec_add m1 m2 a b c s ▸ h) hf
    exact ⟨hpolicy, hpc, m1, m2, a, b, c, hx, hy, .inl ⟨rfl, hop, hout⟩⟩
  | mul m1 m2 a b c =>
    obtain ⟨hpolicy, hpc, hx, hy, hop, hout⟩ := State.overflow_of_integerLaw hr (exec_mul m1 m2 a b c s ▸ h) hf
    exact ⟨hpolicy, hpc, m1, m2, a, b, c, hx, hy, .inr ⟨rfl, hop, hout⟩⟩
  | lt m1 m2 a b c =>
    obtain ⟨u, v, -, -, hlaw⟩ := State.overflow_of_binary hr (exec_lt m1 m2 a b c s ▸ h) hf
    cases hlaw
  | eq m1 m2 a b c =>
    obtain ⟨u, v, -, -, hlaw⟩ := State.overflow_of_binary hr (exec_eq m1 m2 a b c s ▸ h) hf
    cases hlaw
  | jt | jf => exact absurd hf (State.condJump_no_overflow hr h)
  | inp => exact absurd hf (exec_in_no_overflow hr h)
  | out => exact absurd hf (exec_out_no_overflow hr h)
  | hlt =>
    cases h
    cases hf

end Sys2Proof.Machine

/-! SUPPORT. Proofs of the family 42_io_channels: IN and OUT by their rules (R73, R74), what the host's turns do to the
channels and that they leave the machine alone (R77, R79 to R82), when a transfer happens (R75, R80), and how long a signal
stands (R81). -/

namespace Sys2Proof

/-! ## The opcode cells of one operand (30_encoding R46, R47, R49) -/

/-- IN: the selector decides, whatever stands at the destination's digit, 0 or 1, and above it. -/
theorem decodeOp_read {e : Nat} (he : e ≤ 1) (k : Nat) :
    decodeOp ((3 + 100 * e + 1000 * k : Nat) : Int) = .ok .read := by
  rw [decodeOp_nat_eq_ok, Operation.digitsAt_read]
  simp only [selector, digit, Operation.selector]
  omega

/-- OUT: the selector and the source digit decide, whatever stands above them. -/
theorem decodeOp_write (m1 : Mode) (k : Nat) :
    decodeOp ((4 + 100 * m1.digit + 1000 * k : Nat) : Int) = .ok (.write m1) := by
  have hm1 := m1.digit_le_one
  rw [decodeOp_nat_eq_ok, Operation.digitsAt_write]
  simp only [selector, digit, Operation.selector]
  omega

theorem encode_out (m1 : Mode) (a : Int) : encode (.out m1 a) = [4 + 100 * (m1.digit : Int), a] := by
  cases m1 <;> rfl

end Sys2Proof

namespace Sys2Proof.Machine

/-! ## IN and OUT (R73, R74) -/

/-- The inbound transfer takes a host's offer away, or is counted by the feeder. -/
theorem State.takeOffer_eq (s : State) : s.takeOffer =
    { s with inOffer := if s.busy then s.inOffer else none, fed := if s.busy then s.fed + 1 else s.fed } := by
  unfold State.takeOffer
  split <;> rfl

/-- The outbound transfer reaches the drainer's list, and no field of the model where the host is the peer. -/
theorem State.deliver_eq (s : State) (x : Int) :
    s.deliver x = { s with outs := if s.busy then s.outs ++ [x] else s.outs } := by
  unfold State.deliver
  split <;> rfl

/-- Settles O17: one rule of `exec` for each of the three checks that can fail or wait, and the transfer, which stores at
a valid address. -/
theorem inFollowsItsRule : Obligations.InFollowsItsRule := by
  intro s a
  refine ⟨rfl, fun e k he => decodeOp_read he k, exec_in_outside, fun hv => ⟨exec_in_disconnected hv, fun hc =>
    ⟨exec_in_waits hv hc, fun hw x hx => ⟨_, exec_in_takes hv hc hx, ?_, ?_⟩⟩⟩⟩
  · simpa using Memory.updatedAt_write x hw hv
  · rw [State.takeOffer_eq]
    rfl

/-- Settles O18: as O17, with the source in the destination's place and no store. -/
theorem outFollowsItsRule : Obligations.OutFollowsItsRule := by
  intro s m1 a
  refine ⟨encode_out m1 a, decodeOp_write m1, exec_out_no_source, fun x hx => ⟨exec_out_disconnected hx, fun hc =>
    ⟨exec_out_waits hx hc, fun hp => ?_⟩⟩⟩
  rw [exec_out_sends hx hc hp, State.deliver_eq]
  rfl

/-! ## What each turn of the host does (R77, R80 to R82; 46_pipeline R100) -/

theorem State.turnTaken_of_turns {s : State} {u : Turn} {rest : List Turn} (h : s.turns = u :: rest) :
    s.turnTaken = { s with turns := rest } := by
  rw [State.turnTaken, h, List.tail_cons]

theorem step_of_host_cons {s : State} {act : HostAct} {rest : List Turn} (h : s.turns = .host act :: rest) :
    step s = .next (({ s with turns := rest } : State).hostTurn act) := by
  rw [step_of_host h, State.turnTaken_of_turns h]

theorem State.hostTurn_offer (s : State) (v : Int) : s.hostTurn (.offer v) =
    { s with
      inOffer :=
        if s.busy = false ∧ s.inConn = true ∧ s.inOffer = none ∧ inRange s.cfg.width v then some v
        else s.inOffer } := by
  by_cases hv : inRange s.cfg.width v
  · have hturn : s.hostTurn (.offer v) = s.hostOffer v := if_pos (decide_eq_true hv)
    have hguard : (!s.busy && s.inConn && s.inOffer.isNone) = true ↔
        s.busy = false ∧ s.inConn = true ∧ s.inOffer = none := by simp [and_assoc]
    rw [hturn, State.hostOffer]
    split
    · rename_i hs
      obtain ⟨hb, hc, hnone⟩ := hguard.mp hs
      rw [if_pos ⟨hb, hc, hnone, hv⟩]
    · rename_i hs
      rw [if_neg fun ⟨hb, hc, hnone, _⟩ => hs (hguard.mpr ⟨hb, hc, hnone⟩)]
  · have hturn : s.hostTurn (.offer v) = s := if_neg (by simpa [HostAct.fits] using hv)
    rw [hturn, if_neg fun ⟨_, _, _, hin⟩ => hv hin]

theorem State.hostTurn_setReady (s : State) (r : Bool) : s.hostTurn (.setReady r) =
    { s with outReady := if s.busy = false ∧ s.outConn = true then r else s.outReady } := by
  change s.hostReady r = _
  unfold State.hostReady
  split
  · rename_i hs; rw [if_pos (by simpa using hs)]
  · rename_i hs; rw [if_neg (by simpa using hs)]

theorem State.hostTurn_setImage (s : State) (img : List Int) : s.hostTurn (.setImage img) =
    { s with img := if ∀ v ∈ img, inRange s.cfg.width v then img else s.img } := by
  by_cases himg : ∀ v ∈ img, inRange s.cfg.width v
  · rw [if_pos himg, State.hostTurn, HostAct.fits, decide_eq_true himg]
    rfl
  · rw [if_neg himg, State.hostTurn, HostAct.fits, decide_eq_false himg]
    rfl

theorem State.hostTurn_dropInbound {s : State} (h : s.busy = false) :
    s.hostTurn .dropInbound = { s with inConn := false, inOffer := none } := by
  change s.hostDropInbound = _
  simp [State.hostDropInbound, h]

theorem State.hostTurn_dropOutbound {s : State} (h : s.busy = false) :
    s.hostTurn .dropOutbound = { s with outConn := false, outReady := false } := by
  change s.hostDropOutbound = _
  simp [State.hostDropOutbound, h]

/-- Settles O36: the host holds both halves while the arbiter is not busy. -/
theorem hostDropsAChannel : Obligations.HostDropsAChannel := by
  intro s rest hb
  constructor
  · intro h
    rw [step_of_host_cons h, State.hostTurn_dropInbound (s := { s with turns := rest }) hb]
  · intro h
    rw [step_of_host_cons h, State.hostTurn_dropOutbound (s := { s with turns := rest }) hb]

/-! ## What the host's turns leave alone (R79, R82) -/

/-- An action that does not make the machine anew writes the two peers' signals, the two connections and the `img` port
at most. -/
theorem State.hostTurn_frame (s : State) {act : HostAct} (h : act.rebuilds = false) :
    s.hostTurn act = { s with
      inConn := (s.hostTurn act).inConn, outConn := (s.hostTurn act).outConn, inOffer := (s.hostTurn act).inOffer
      outReady := (s.hostTurn act).outReady, img := (s.hostTurn act).img } := by
  rcases State.hostTurn_plain h with e | ⟨v, e, -⟩ | ⟨r, e⟩ | ⟨e, -⟩ | ⟨e, -⟩ | ⟨img, e, -⟩ <;> rw [e]

/-- Settles O40: the frame of the actions that do not rebuild, and one equation for each of the three signals. -/
theorem hostLeavesMachineAlone : Obligations.HostLeavesMachineAlone := by
  intro s rest
  refine ⟨fun act h hact => ⟨_, step_of_host_cons h, ?_⟩, fun v h => ?_, fun r h => ?_, fun img h => ?_⟩
  · rw [State.hostTurn_frame _ hact]
    exact ⟨rfl, rfl, rfl, rfl, rfl, rfl, rfl, rfl, rfl, rfl, rfl⟩
  · rw [step_of_host_cons h, State.hostTurn_offer]
    rfl
  · rw [step_of_host_cons h, State.hostTurn_setReady]
    rfl
  · rw [step_of_host_cons h, State.hostTurn_setImage]

/-- While the arbiter is busy it holds the channels and ignores a start: only a power-up and an image on the port have
an effect. -/
theorem State.hostTurn_of_busy {s : State} {act : HostAct} (hb : s.busy = true) (hp : act ≠ .powerUp)
    (hi : ∀ img, act ≠ .setImage img) : s.hostTurn act = s := by
  by_cases hk : act.keepsRun = true
  · obtain ⟨-, -, -, hkeep⟩ := State.hostTurn_keepsRun (s := s) hk
    exact hkeep hb
  · cases act with
    | powerUp => exact absurd rfl hp
    | setImage img => exact absurd rfl (hi img)
    | start img n ps => simp [State.hostTurn, State.hostStart, hb]
    | _ => exact absurd rfl hk

/-- Settles O54: an image on the port is the one action that has an effect, and it writes nothing else. -/
theorem hostCannotReachStage : Obligations.HostCannotReachStage := by
  intro s act rest hb h hp
  refine ⟨_, step_of_host_cons h, ?_⟩
  by_cases hi : ∃ img, act = .setImage img
  · obtain ⟨img, rfl⟩ := hi
    rw [State.hostTurn_setImage]
    exact ⟨rfl, fun hne => absurd rfl (hne img)⟩
  · rw [State.hostTurn_of_busy (s := { s with turns := rest }) hb hp (not_exists.mp hi)]
    exact ⟨rfl, fun _ => rfl⟩

/-! ## The ports are functions of the machine (R80) -/

theorem State.current_congr {s t : State} (hs : t.status = s.status) (hm : t.mem = s.mem) (hp : t.pc = s.pc) :
    t.current = s.current := by
  rw [State.current, State.current, hs, State.fetch_congr hm hp]

theorem State.inReady_congr {s t : State} (hs : t.status = s.status) (hm : t.mem = s.mem) (hp : t.pc = s.pc)
    (hc : t.inConn = s.inConn) : t.inReady = s.inReady := by
  rw [State.inReady, State.inReady, State.current_congr hs hm hp, hm, hc]

theorem State.source_congr {s t : State} (hm : t.mem = s.mem) (m : Mode) (x : Int) : t.source m x = s.source m x := by
  unfold State.source
  rw [hm]

theorem State.outData_congr {s t : State} (hs : t.status = s.status) (hm : t.mem = s.mem) (hp : t.pc = s.pc)
    (hc : t.outConn = s.outConn) : t.outData = s.outData := by
  simp only [State.outData, State.current_congr hs hm hp, State.source_congr hm, hc]

@[simp] theorem State.inReady_turnTaken (s : State) : s.turnTaken.inReady = s.inReady :=
  State.inReady_congr rfl rfl rfl rfl

@[simp] theorem State.outData_turnTaken (s : State) : s.turnTaken.outData = s.outData :=
  State.outData_congr rfl rfl rfl rfl

theorem step_of_current {s : State} {i : Instr} (hc : s.coreIsNext = true) (h : s.current = some i) :
    step s = exec i s.turnTaken := by
  obtain ⟨hr, hf⟩ := State.current_eq_some.mp h
  exact step_of_instr hc hr hf

/-! ## A blocked machine whose peer goes (R77) -/

theorem step_of_in_disconnected {s : State} {a : Int} (hc : s.coreIsNext = true) (hcur : s.current = some (.inp a))
    (hv : s.mem.Valid a) (hconn : s.inConn = false) :
    step s = .next (s.turnTaken.raise (.channelDisconnected s.pc .inbound)) :=
  (step_of_current hc hcur).trans (exec_in_disconnected (s := s.turnTaken) hv hconn)

theorem step_of_out_disconnected {s : State} {m : Mode} {a x : Int} (hc : s.coreIsNext = true)
    (hcur : s.current = some (.out m a)) (hx : s.source m a = some x) (hconn : s.outConn = false) :
    step s = .next (s.turnTaken.raise (.channelDisconnected s.pc .outbound)) :=
  (step_of_current hc hcur).trans (exec_out_disconnected (s := s.turnTaken) hx hconn)

/-- Settles O37: after the drop the machine is at the same instruction, with its checks passed, and the connection is
what fails. -/
theorem blockedMachineFaultsOnDisconnect : Obligations.BlockedMachineFaultsOnDisconnect := by
  intro s rest hb
  obtain ⟨hdropIn, hdropOut⟩ := hostDropsAChannel s (.core :: rest) hb
  constructor
  · intro h hready
    obtain ⟨a, hcur, hv, -⟩ := State.inReady_iff.mp hready
    exact ⟨_, hdropIn h, step_of_in_disconnected rfl ((State.current_congr rfl rfl rfl).trans hcur) hv rfl⟩
  · intro h hvalid
    obtain ⟨x, hx⟩ := Option.isSome_iff_exists.mp hvalid
    obtain ⟨m, a, hcur, hsource, -⟩ := State.outData_eq_some.mp hx
    exact ⟨_, hdropOut h, step_of_out_disconnected rfl ((State.current_congr rfl rfl rfl).trans hcur) hsource rfl⟩

/-! ## When a transfer happens (R75, R80) -/

/-- The handshake that a transfer's event is the trace of: valid and ready are both 1 on its channel, and the value is
the one offered. The other events have none. -/
def State.Handshake (s : State) : Event → Prop
  | .input x => s.inReady = true ∧ s.peerOffer = some x
  | .output x => s.outData = some x ∧ s.peerReady = true
  | .decodeError _ _ => True
  | .halt => True
  | .fault _ => True

section Transfer

variable {s t : State}

theorem State.handshake_turnTaken {e : Event} : s.turnTaken.Handshake e ↔ s.Handshake e := by
  cases e <;> simp [State.Handshake]

theorem event_eq_of_trace_append {e e' : Event} (h : t.trace = s.trace ++ [e]) (h' : t.trace = s.trace ++ [e']) :
    e = e' := by
  simpa using h.symm.trans h'

/-- An instruction that appends an event transfers by the handshake, or appends the event of a fault or a halt. -/
theorem Effect.handshake {i : Instr} {e : Event} (he : Effect s i t) (hcur : s.current = some i)
    (ht : t.trace = s.trace ++ [e]) : s.Handshake e := by
  cases he with
  | fault _ f => cases event_eq_of_trace_append ht (s.trace_raise f); trivial
  | halt => cases event_eq_of_trace_append ht rfl; trivial
  | receive d x hv hc hp =>
    cases event_eq_of_trace_append ht (e' := .input x) (by simp)
    exact ⟨State.inReady_iff.mpr ⟨d, hcur, hv, hc⟩, hp⟩
  | send m a x hx hc hp =>
    cases event_eq_of_trace_append ht (e' := .output x) (by simp)
    exact ⟨State.outData_eq_some.mpr ⟨m, a, hcur, hx, hc⟩, hp⟩
  | _ => simp at ht

theorem handshake_of_engineStep {e : Event} (hr : s.status = .running) (h : engineStep s = .next t)
    (ht : t.trace = s.trace ++ [e]) : s.Handshake e := by
  rcases engineStep_cases h with ⟨i, hf, h⟩ | ⟨v, -, rfl⟩ | ⟨f, -, rfl⟩
  · exact (exec_effect h).handshake (State.current_eq_some.mpr ⟨hr, hf⟩) ht
  · rcases s.decodeFailure_cases v with hd | hd <;>
    · rw [hd] at ht
      cases event_eq_of_trace_append ht rfl
      trivial
  · cases event_eq_of_trace_append ht rfl
    trivial

theorem handshake_of_step {e : Event} (hc : s.coreIsNext = true) (hr : s.status = .running) (h : step s = .next t)
    (ht : t.trace = s.trace ++ [e]) : s.Handshake e :=
  State.handshake_turnTaken.mp (handshake_of_engineStep (s := s.turnTaken) hr (step_of_running hc hr ▸ h) ht)

/-- Valid and ready on the inbound channel: the core's turn takes the value. -/
theorem trace_of_inReady {x : Int} (hc : s.coreIsNext = true) (h : step s = .next t) (hready : s.inReady = true)
    (hp : s.peerOffer = some x) : t.trace = s.trace ++ [.input x] := by
  obtain ⟨a, hcur, hv, hconn⟩ := State.inReady_iff.mp hready
  cases ((step_of_current hc hcur).trans (exec_in_takes (s := s.turnTaken) hv hconn hp)).symm.trans h
  simp

/-- Valid and ready on the outbound channel: the core's turn sends the value. -/
theorem trace_of_outData {x : Int} (hc : s.coreIsNext = true) (h : step s = .next t) (hx : s.outData = some x)
    (hp : s.peerReady = true) : t.trace = s.trace ++ [.output x] := by
  obtain ⟨m, a, hcur, hsource, hconn⟩ := State.outData_eq_some.mp hx
  cases ((step_of_current hc hcur).trans (exec_out_sends (s := s.turnTaken) hsource hconn hp)).symm.trans h
  simp

end Transfer

/-- Settles O41: an event of a transfer has its handshake, and a handshake makes its transfer. -/
theorem transferExactlyWhenBothReady : Obligations.TransferExactlyWhenBothReady := by
  intro s t hr hc h
  constructor
  · constructor
    · rintro ⟨v, ht⟩
      obtain ⟨hready, hp⟩ := handshake_of_step hc hr h ht
      exact ⟨hready, Option.isSome_of_eq_some hp⟩
    · rintro ⟨hready, hp⟩
      obtain ⟨x, hx⟩ := Option.isSome_iff_exists.mp hp
      exact ⟨x, trace_of_inReady hc h hready hx⟩
  · constructor
    · rintro ⟨v, ht⟩
      obtain ⟨hx, hp⟩ := handshake_of_step hc hr h ht
      exact ⟨Option.isSome_of_eq_some hx, hp⟩
    · rintro ⟨hvalid, hp⟩
      obtain ⟨x, hx⟩ := Option.isSome_iff_exists.mp hvalid
      exact ⟨x, trace_of_outData hc h hx hp⟩

/-! ## How long a signal stands (R81) -/

section Stands

variable {s t : State}

/-- An instruction leaves the host's offer standing, or takes it. -/
theorem Effect.inOffer_stands {i : Instr} {v : Int} (e : Effect s i t) (hv : s.inOffer = some v) :
    t.inOffer = some v ∨ t.trace = s.trace ++ [.input v] := by
  cases e with
  | receive d x _ _ hp =>
    cases hb : s.busy with
    | true => exact .inl (by simp [hb, hv])
    | false =>
      have hx : s.inOffer = some x := by simpa [State.peerOffer, hb] using hp
      cases hv.symm.trans hx
      exact .inr (by simp)
  | send => exact .inl (by simpa using hv)
  | _ => exact .inl hv

theorem inOffer_stands_of_engineStep {v : Int} (h : engineStep s = .next t) (hv : s.inOffer = some v) :
    t.inOffer = some v ∨ t.trace = s.trace ++ [.input v] := by
  rcases engineStep_cases h with ⟨i, -, h⟩ | ⟨u, -, rfl⟩ | ⟨f, -, rfl⟩
  · exact (exec_effect h).inOffer_stands hv
  · rcases s.decodeFailure_cases u with e | e <;> exact .inl (by simpa [e] using hv)
  · exact .inl hv

/-- The host withdraws its offer by closing the channel alone. -/
theorem State.inOffer_stands_hostTurn {act : HostAct} {v : Int} (h : act.rebuilds = false) (hv : s.inOffer = some v) :
    (s.hostTurn act).inOffer = some v ∨ (s.hostTurn act).inConn = false := by
  rcases State.hostTurn_plain h with e | ⟨u, e, -, hnone, -⟩ | ⟨r, e⟩ | ⟨e, -⟩ | ⟨e, -⟩ | ⟨img, e, -⟩ <;> rw [e]
  · exact .inl hv
  · cases hv.symm.trans hnone
  · exact .inl hv
  · exact .inr rfl
  · exact .inl hv
  · exact .inl hv

/-- A turn of the host that leaves the inbound channel connected leaves all that `in_ready` depends on. -/
theorem State.inReady_stands_hostTurn {act : HostAct} (h : act.rebuilds = false) (hready : s.inReady = true) :
    (s.hostTurn act).inReady = true ∨ (s.hostTurn act).inConn = false := by
  cases hc : (s.hostTurn act).inConn with
  | false => exact .inr rfl
  | true =>
    have hs : s.inConn = true := (State.Continues.hostTurn h).inConn hc
    have hframe := s.hostTurn_frame h
    rw [State.inReady_congr (by rw [hframe]) (by rw [hframe]) (by rw [hframe]) (hc.trans hs.symm)]
    exact .inl hready

/-- A turn of the host that leaves the outbound channel connected leaves all that `out_data` depends on. -/
theorem State.outData_stands_hostTurn {act : HostAct} {x : Int} (h : act.rebuilds = false) (hx : s.outData = some x) :
    (s.hostTurn act).outData = some x ∨ (s.hostTurn act).outConn = false := by
  cases hc : (s.hostTurn act).outConn with
  | false => exact .inr rfl
  | true =>
    have hs : s.outConn = true := (State.Continues.hostTurn h).outConn hc
    have hframe := s.hostTurn_frame h
    rw [State.outData_congr (by rw [hframe]) (by rw [hframe]) (by rw [hframe]) (hc.trans hs.symm)]
    exact .inl hx

/-- In the core's turn a machine that is ready takes the value that is offered, or waits where it is. -/
theorem inReady_stands_of_core (hc : s.coreIsNext = true) (h : step s = .next t) (hready : s.inReady = true) :
    t.inReady = true ∨ ∃ v, t.trace = s.trace ++ [.input v] := by
  cases hp : s.peerOffer with
  | some x => exact .inr ⟨x, trace_of_inReady hc h hready hp⟩
  | none =>
    have hblocked : s.blockedOnInput = true := by simp [State.blockedOnInput, hready, hp]
    cases (blockedMachineWaits s hc (.inl hblocked)).symm.trans h
    exact .inl (by simpa using hready)

/-- In the core's turn a machine that offers a value sends it to a peer that is ready, or waits where it is. -/
theorem outData_stands_of_core {x : Int} (hc : s.coreIsNext = true) (h : step s = .next t) (hx : s.outData = some x) :
    t.outData = some x ∨ t.trace = s.trace ++ [.output x] := by
  cases hp : s.peerReady with
  | true => exact .inr (trace_of_outData hc h hx hp)
  | false =>
    have hblocked : s.blockedOnOutput = true := by simp [State.blockedOnOutput, State.outValid, hx, hp]
    cases (blockedMachineWaits s hc (.inr hblocked)).symm.trans h
    exact .inl (by simpa using hx)

end Stands

/-- Settles O42: a step that does not rebuild is an instruction's, nothing, or a plain turn of the host. -/
theorem offerStandsUntilTaken : Obligations.OfferStandsUntilTaken := by
  intro s t v hv hk h
  rcases step_cases_of_not_rebuilds h hk with ⟨-, -, h⟩ | ⟨-, -, rfl⟩ | ⟨act, rest, -, hact, rfl⟩
  · exact (inOffer_stands_of_engineStep (s := s.turnTaken) h hv).imp_right .inl
  · exact .inl hv
  · exact (State.inOffer_stands_hostTurn (s := s.turnTaken) hact hv).imp_right .inr

/-- Settles O43: by whose turn it is; the core's ends in the transfer, the host's in the close. -/
theorem inReadyStands : Obligations.InReadyStands := by
  intro s t hready hk h
  rcases step_cases h with ⟨hc, -⟩ | ⟨act, rest, hturns, rfl⟩
  · exact (inReady_stands_of_core hc h hready).imp_right .inl
  · have hplain : act.rebuilds = false := State.rebuildsNext_of_host hturns ▸ hk
    exact (State.inReady_stands_hostTurn (s := s.turnTaken) hplain (by simpa using hready)).imp_right .inr

/-- Settles O44: as O43, for the outbound channel. -/
theorem outDataStands : Obligations.OutDataStands := by
  intro s t x hx hk h
  rcases step_cases h with ⟨hc, -⟩ | ⟨act, rest, hturns, rfl⟩
  · exact (outData_stands_of_core hc h hx).imp_right .inl
  · have hplain : act.rebuilds = false := State.rebuildsNext_of_host hturns ▸ hk
    exact (State.outData_stands_hostTurn (s := s.turnTaken) hplain (by simpa using hx)).imp_right .inr

end Sys2Proof.Machine

/-! SUPPORT. Proofs of the family 43_conditional_jump: JT and JF by the rule that they share (R83 to R85). -/

namespace Sys2Proof

/-! ## The opcode cells of two sources (30_encoding R46, R47) -/

/-- Format F2: the selector and the two source digits decide, whatever stands above them. -/
theorem decodeOp_of_arity_two {d : Operation} {m1 m2 : Mode} (ha : d.arity = 2) (h1 : d.mode1 = some m1)
    (h2 : d.mode2 = some m2) (k : Nat) :
    decodeOp ((d.selector + 100 * m1.digit + 1000 * m2.digit + 10000 * k : Nat) : Int) = .ok d := by
  have hs := d.selector_lt
  have hm1 := m1.digit_le_one
  have hm2 := m2.digit_le_one
  rw [decodeOp_nat_eq_ok, Operation.digitsAt_of_arity_two ha h1 h2]
  simp only [selector, digit]
  omega

end Sys2Proof

namespace Sys2Proof.Machine

/-! ## The common semantics of a conditional jump (R85)

The jump of polarity `pol` is taken when the truth of its predicate, `decide (p ≠ 0)`, is `pol`. -/

section CondJump

variable {s : State} {pol : Bool} {m1 m2 : Mode} {a b p u : Int}

theorem State.condJump_of_no_predicate (hp : s.source m1 a = none) :
    s.condJump pol m1 m2 a b = .error (.addressOutOfRange s.pc a .load) := by
  simp [State.condJump, State.val_of_no_source hp]

/-- The target operand stands in no hypothesis: a jump that is not taken does not resolve it. -/
theorem State.condJump_not_taken (hp : s.source m1 a = some p) (hpol : decide (p ≠ 0) ≠ pol) :
    s.condJump pol m1 m2 a b = .ok (s.advance 3) := by
  rw [State.condJump, State.val_of_source hp, except_ok_bind, if_neg hpol, except_pure]

/-- Once the jump is taken, all that is left is to resolve the target by its own mode; the result is not checked. -/
theorem State.condJump_taken (hp : s.source m1 a = some p) (hpol : decide (p ≠ 0) = pol) :
    s.condJump pol m1 m2 a b = (s.val m2 b).map fun u => { s with pc := u } := by
  rw [State.condJump, State.val_of_source hp, except_ok_bind, if_pos hpol]
  cases s.val m2 b <;> rfl

theorem State.complete_condJump_of_no_predicate (hp : s.source m1 a = none) :
    s.complete (s.condJump pol m1 m2 a b) = .next (s.raise (.addressOutOfRange s.pc a .load)) := by
  rw [State.condJump_of_no_predicate hp, State.complete_error]

theorem State.complete_condJump_not_taken (hp : s.source m1 a = some p) (hpol : decide (p ≠ 0) ≠ pol) :
    s.complete (s.condJump pol m1 m2 a b) = .next { s with pc := s.pc + 3 } := by
  rw [State.condJump_not_taken hp hpol, State.complete_ok, State.advance]

theorem State.complete_condJump_of_no_target (hp : s.source m1 a = some p) (hpol : decide (p ≠ 0) = pol)
    (hu : s.source m2 b = none) :
    s.complete (s.condJump pol m1 m2 a b) = .next (s.raise (.addressOutOfRange s.pc b .load)) := by
  rw [State.condJump_taken hp hpol, State.val_of_no_source hu, Except.map, State.complete_error]

theorem State.complete_condJump_taken (hp : s.source m1 a = some p) (hpol : decide (p ≠ 0) = pol)
    (hu : s.source m2 b = some u) : s.complete (s.condJump pol m1 m2 a b) = .next { s with pc := u } := by
  rw [State.condJump_taken hp hpol, State.val_of_source hu, Except.map, State.complete_ok]

end CondJump

/-! ## JT and JF (R83, R84) -/

theorem exec_jt (m1 m2 : Mode) (a b : Int) (s : State) :
    exec (.jt m1 m2 a b) s = s.complete (s.condJump true m1 m2 a b) := rfl

theorem exec_jf (m1 m2 : Mode) (a b : Int) (s : State) :
    exec (.jf m1 m2 a b) s = s.complete (s.condJump false m1 m2 a b) := rfl

/-- Settles O19: the cells are those of format F2 with the selector 5, and the rest is the shared rule for the polarity
`true`, which the predicate 0 does not have and every other predicate has. -/
theorem jtFollowsItsRule : Obligations.JtFollowsItsRule := by
  intro s m1 m2 a b
  have hopcode := Operation.opcode_of_two_sources (d := .condJump true m1 m2) rfl
  rw [exec_jt]
  refine ⟨congrArg (· :: [a, b]) hopcode, decodeOp_of_arity_two (d := .condJump true m1 m2) rfl rfl rfl,
    State.complete_condJump_of_no_predicate, fun hp => State.complete_condJump_not_taken hp (by decide),
    fun p hp hne => ?_⟩
  have htaken : decide (p ≠ 0) = true := decide_eq_true hne
  exact ⟨State.complete_condJump_of_no_target hp htaken, fun _ => State.complete_condJump_taken hp htaken⟩

/-- Settles O20: as O19, with the selector 6 and the polarity `false`, which the predicate 0 alone has. -/
theorem jfFollowsItsRule : Obligations.JfFollowsItsRule := by
  intro s m1 m2 a b
  have hopcode := Operation.opcode_of_two_sources (d := .condJump false m1 m2) rfl
  rw [exec_jf]
  refine ⟨congrArg (· :: [a, b]) hopcode, decodeOp_of_arity_two (d := .condJump false m1 m2) rfl rfl rfl,
    State.complete_condJump_of_no_predicate, fun p hp hne => State.complete_condJump_not_taken hp (by simpa using hne),
    fun hp => ?_⟩
  have htaken : decide ((0 : Int) ≠ 0) = false := by decide
  exact ⟨State.complete_condJump_of_no_target hp htaken, fun _ => State.complete_condJump_taken hp htaken⟩

end Sys2Proof.Machine

/-! SUPPORT. Proofs of the family 44_compare: LT and EQ by the rule that they share (R86, R87). -/

namespace Sys2Proof

theorem b2c_decide (p : Prop) [Decidable p] : b2c (decide p) = if p then 1 else 0 := by
  simp [b2c]

end Sys2Proof

namespace Sys2Proof.Machine

/-- The faults, the result and the frame that R86 and R87 share: 1 is stored when `r` relates the two source values,
else 0. The value is always there, so the three address checks are the only faults. -/
theorem State.comparison_rule (s : State) (m1 m2 : Mode) (a b c : Int) (r : Int → Int → Prop)
    [∀ x y, Decidable (r x y)] :
    let run := s.complete (s.binary m1 m2 a b c fun x y => .ok (b2c (decide (r x y))))
    (s.source m1 a = none → run = .next (s.raise (.addressOutOfRange s.pc a .load))) ∧
    ∀ x, s.source m1 a = some x →
      (s.source m2 b = none → run = .next (s.raise (.addressOutOfRange s.pc b .load))) ∧
      ∀ y, s.source m2 b = some y →
        (¬ s.mem.Valid c → run = .next (s.raise (.addressOutOfRange s.pc c .store))) ∧
        (s.mem.wf = true → s.mem.Valid c →
          ∃ t, run = .next t ∧ s.mem.UpdatedAt t.mem c (if r x y then 1 else 0) ∧
            t = { s with mem := t.mem, pc := s.pc + 4 }) := by
  refine ⟨fun hx => ?_, fun x hx => ⟨fun hy => ?_, fun y hy => ⟨fun hc => ?_, fun hw hc => ?_⟩⟩⟩
  · rw [State.binary_of_no_first hx, State.complete_error]
  · rw [State.binary_of_no_second hx hy, State.complete_error]
  · rw [State.binary_of_no_destination hx hy hc, State.complete_error]
  · exact State.complete_binary_stores hx hy hw hc (congrArg Except.ok (b2c_decide (r x y)))

/-- Settles O15: the cells are those of format F3 with the selector 7, and the rest is the shared rule for `<` of the
integers. -/
theorem ltFollowsItsRule : Obligations.LtFollowsItsRule := by
  intro s m1 m2 a b c
  have hopcode := Operation.opcode_of_two_sources (d := .lessThan m1 m2) rfl
  rw [exec_lt]
  exact ⟨congrArg (· :: [a, b, c]) hopcode, fun e k he => decodeOp_of_arity_three (d := .lessThan m1 m2) rfl rfl rfl he k,
    s.comparison_rule m1 m2 a b c (· < ·)⟩

/-- Settles O16: as O15, with the selector 8 and equality. -/
theorem eqFollowsItsRule : Obligations.EqFollowsItsRule := by
  intro s m1 m2 a b c
  have hopcode := Operation.opcode_of_two_sources (d := .equal m1 m2) rfl
  rw [exec_eq]
  exact ⟨congrArg (· :: [a, b, c]) hopcode, fun e k he => decodeOp_of_arity_three (d := .equal m1 m2) rfl rfl rfl he k,
    s.comparison_rule m1 m2 a b c (· = ·)⟩

end Sys2Proof.Machine

/-! SUPPORT. Proofs of the family 45_halt: HLT, and what a machine that does not run shows at its channel ports (R88). -/

namespace Sys2Proof

/-- HLT has no operand: the selector decides, whatever stands above it (R46, R47). -/
theorem decodeOp_halt (k : Nat) : decodeOp ((99 + 100 * k : Nat) : Int) = .ok .halt := by
  have hselector : selector (99 + 100 * k) = 99 := Nat.add_mul_mod_self_left ..
  exact decodeOp_nat_eq_ok.mpr ⟨hselector, Operation.digitsAt_halt⟩

end Sys2Proof

namespace Sys2Proof.Machine

/-! ## A machine that does not run is at no instruction (42_io_channels R80) -/

section NotRunning

variable {s : State}

theorem State.current_of_not_running (h : s.status ≠ .running) : s.current = none := by
  refine Option.eq_none_iff_forall_ne_some.mpr fun i hi => ?_
  obtain ⟨hrunning, -⟩ := State.current_eq_some.mp hi
  exact h hrunning

theorem State.inReady_of_not_running (h : s.status ≠ .running) : s.inReady = false := by
  rw [State.inReady, State.current_of_not_running h, Option.bind_none]

theorem State.outValid_of_not_running (h : s.status ≠ .running) : s.outValid = false := by
  rw [State.outValid, State.outData, State.current_of_not_running h, Option.bind_none, Option.isSome_none]

end NotRunning

/-! ## HLT -/

theorem exec_hlt (s : State) :
    exec .hlt s = .next { s with status := .halted, trace := s.trace ++ [.halt], pc := s.pc + 1 } := rfl

/-- With no turn listed, the core moves, and no turn goes from the list. -/
theorem step_of_halted {s : State} (hs : s.status = .halted) (hb : s.busy = false) (ht : s.turns = []) :
    step s = .next s := by
  have hc : s.coreIsNext = true := by rw [State.coreIsNext, ht]
  rw [haltedStepIsNoOp s hs hb hc, State.turnTaken_of_no_turns ht]

/-- Settles O21: after HLT the machine is Halted, so it is at no IN or OUT, and its step is the no-op of R64. -/
theorem hltFollowsItsRule : Obligations.HltFollowsItsRule := by
  intro s
  have hne : Status.halted ≠ .running := nofun
  exact ⟨rfl, decodeOp_halt, _, exec_hlt s, rfl, State.inReady_of_not_running hne, State.outValid_of_not_running hne,
    step_of_halted rfl⟩

end Sys2Proof.Machine

/-! SUPPORT. Proofs of the family 46_pipeline: a start (R90), the feeder and the drainer (R92, R93), the end of a stage with its
checks, the carry and the result (R91, R93 to R98, R100), what a stage depends on (R101), and the carry chain that a run
computes (R89). -/

namespace Sys2Proof.Machine

/-! ## A start (R90) -/

theorem State.hostTurn_start {s : State} {img phases : List Int} {n : Nat} (hb : s.busy = false)
    (himg : ∀ v ∈ img, inRange s.cfg.width v) (hphases : ∀ v ∈ phases, inRange s.cfg.width v) :
    s.hostTurn (.start img n phases) = s.startRun img n phases := by
  rw [State.hostTurn, if_pos (HostAct.fits_start himg hphases)]
  simp [State.hostStart, hb]

theorem State.startRun_of_wrong_arity (s : State) (img : List Int) {phases : List Int} {n : Nat}
    (h : phases.length ≠ n) : s.startRun img n phases = { s with
      astatus := .afaulted (.pipelineArity n phases.length)
      k := 0, carry := 0, fed := 0, outs := [], img := img, nStages := n, phases := phases } := by
  rw [State.startRun, if_neg h, State.arbiterRaise]

/-- Settles O52: the start takes the arity fault, whose entry writes fields of the arbiter alone. -/
theorem startWithWrongArity : Obligations.StartWithWrongArity := by
  intro s img phases n rest hb himg hphases h hn
  refine ⟨_, step_of_host_cons h, ?_⟩
  rw [State.hostTurn_start (s := { s with turns := rest }) hb himg hphases, State.startRun_of_wrong_arity _ _ hn]
  exact ⟨rfl, rfl, rfl, rfl, rfl, rfl, rfl⟩

/-! ## The feeder and the drainer (R92, R93) -/

section Peer

variable {s : State}

theorem State.peerOffer_of_busy (h : s.busy = true) : s.peerOffer = s.feederOffer := if_pos h

theorem State.peerReady_of_busy (h : s.busy = true) : s.peerReady = true := if_pos h

theorem State.feederOffer_first (h : s.fed = 0) : s.feederOffer = s.phases[s.k]? := if_pos h

theorem State.feederOffer_second (h : s.fed = 1) : s.feederOffer = some s.carry := by
  rw [State.feederOffer, if_neg (by omega), if_pos h]

theorem State.feederOffer_none (h : 2 ≤ s.fed) : s.feederOffer = none := by
  rw [State.feederOffer, if_neg (by omega), if_neg (by omega)]

/-- What a stage's IN makes of the value that the feeder offers. -/
theorem exec_in_of_busy {a x : Int} (hb : s.busy = true) (hc : s.inConn = true) (hw : s.mem.wf = true)
    (hv : s.mem.Valid a) (hx : s.feederOffer = some x) :
    ∃ t, exec (.inp a) s = .next t ∧ s.mem.UpdatedAt t.mem a x ∧
      t = { s with mem := t.mem, pc := s.pc + 2, trace := s.trace ++ [.input x], fed := s.fed + 1 } := by
  obtain ⟨-, -, -, hvalid⟩ := inFollowsItsRule s a
  obtain ⟨-, htakes⟩ := (hvalid hv).2 hc
  simpa only [hb, if_true] using htakes hw x ((State.peerOffer_of_busy hb).trans hx)

end Peer

/-- Settles O55: by what the feeder offers at each count of inputs taken. -/
theorem feederGivesPhaseThenCarry : Obligations.FeederGivesPhaseThenCarry := by
  intro s a p hb hc hw hv hp
  refine ⟨fun h0 => ?_, fun h1 => ?_, fun h2 => ?_⟩
  · simpa only [h0] using exec_in_of_busy hb hc hw hv ((State.feederOffer_first h0).trans hp)
  · simpa only [h1] using exec_in_of_busy hb hc hw hv (State.feederOffer_second h1)
  · exact exec_in_waits hv hc ((State.peerOffer_of_busy hb).trans (State.feederOffer_none h2))

/-- Settles O56: while a stage runs the outbound peer is the drainer, which is always ready. -/
theorem drainerTakesEveryOutput : Obligations.DrainerTakesEveryOutput := by
  intro s m a x hb hc hx
  rw [exec_out_sends hx hc (State.peerReady_of_busy hb), State.deliver_eq, if_pos hb]
  rfl

/-! ## The end of a stage (R93 to R98) -/

section StageEnd

variable {s : State}

theorem step_of_stageFaulted {f : Fault} (hc : s.coreIsNext = true) (hb : s.busy = true) (hs : s.status = .faulted f) :
    step s = .next (s.turnTaken.stageFaulted f) := by
  rw [step_of_core hc, coreTurn, State.status_turnTaken, hs]
  exact if_pos hb

theorem State.stageHalted_of_unconsumed (h : s.fed < 2) :
    s.stageHalted = s.arbiterRaise (.stageUnconsumedInput s.k s.fed) := if_pos h

theorem State.stageHalted_of_outputCount (hf : 2 ≤ s.fed) (ho : s.outs.length ≠ 1) :
    s.stageHalted = s.arbiterRaise (.stageOutputCount s.k s.outs.length) := by
  rw [State.stageHalted, if_neg (by omega)]
  split
  · rename_i r hr; exact absurd (by rw [hr]; rfl) ho
  · rfl

theorem State.stageHalted_of_one_output {r : Int} (hf : 2 ≤ s.fed) (ho : s.outs = [r]) :
    s.stageHalted = ({ s with carry := r, k := s.k + 1 } : State).nextStage := by
  rw [State.stageHalted, if_neg (by omega), ho]

end StageEnd

theorem State.afaultInfo_eq_some {s : State} {g : ArbiterFault} (h : s.astatus = .afaulted g) :
    s.afaultInfo = some g := by
  rw [State.afaultInfo, h]

theorem State.result_of_afaulted {s : State} {g : ArbiterFault} (h : s.astatus = .afaulted g) : s.result = none := by
  rw [State.result, h]

theorem State.busy_of_afaulted {s : State} {g : ArbiterFault} (h : s.astatus = .afaulted g) : s.busy = false := by
  rw [State.busy, h]

/-- Settles O57: one equation of the core's turn for each check, in their order, and the ports of an arbiter fault. -/
theorem stageEndChecks : Obligations.StageEndChecks := by
  refine ⟨fun s hb hc => ⟨fun f hs => ?_, fun hs hf => ?_, fun hs hf ho => ?_⟩, fun s g h => ?_⟩
  · exact step_of_stageFaulted hc hb hs
  · rw [step_of_stageHalted hc hb hs, State.stageHalted_of_unconsumed (s := s.turnTaken) hf]
    rfl
  · rw [step_of_stageHalted hc hb hs, State.stageHalted_of_outputCount (s := s.turnTaken) hf ho]
    rfl
  · have hinfo := State.afaultInfo_eq_some h
    refine ⟨by rw [State.afaultPort, hinfo]; rfl, State.busy_of_afaulted h,
      by rw [State.donePort, State.result_of_afaulted h]; rfl, hinfo, ?_⟩
    rw [State.afaultCode, hinfo]
    cases g <;> rfl

/-- Settles O58: the end of a stage that passes its checks is the top of the arbiter's loop, which builds a stage or ends
the run; the next stage's memory reads as the image. -/
theorem carryPassesToNextStage : Obligations.CarryPassesToNextStage := by
  intro s r hb hc hs hf ho
  refine ⟨_, (step_of_stageHalted hc hb hs).trans (by rw [State.stageHalted_of_one_output (s := s.turnTaken) hf ho]), ?_⟩
  rcases Nat.lt_or_ge (s.k + 1) s.nStages with hlt | hge
  · rw [State.nextStage_of_lt (s := { s.turnTaken with carry := r, k := s.turnTaken.k + 1 }) hlt]
    refine ⟨rfl, rfl, rfl, rfl, rfl, rfl, rfl, fun _ => ?_, fun hge => absurd hlt (by omega)⟩
    exact ⟨rfl, rfl, rfl, rfl, rfl, rfl, rfl, Memory.read_ofImage s.img, rfl, rfl, rfl, rfl, rfl⟩
  · rw [State.nextStage_of_ge (s := { s.turnTaken with carry := r, k := s.turnTaken.k + 1 }) hge]
    refine ⟨rfl, rfl, rfl, rfl, rfl, rfl, rfl, fun hlt => absurd hlt (by omega), fun _ => ?_⟩
    exact ⟨rfl, rfl, rfl, rfl, rfl, rfl, hs⟩

/-! ## What a stage depends on (R101)

Every operation of a meaning finds the same in two states of one stage, so the meanings answer alike. -/

/-- Two answers of a meaning are alike: two states of one stage, or the same fault. -/
inductive SameAnswer : Except Fault State → Except Fault State → Prop where
  | ok {s t : State} : s.SameStage t → SameAnswer (.ok s) (.ok t)
  | error (f : Fault) : SameAnswer (.error f) (.error f)

theorem SameAnswer.bind {α : Type} {x : Except Fault α} {f g : α → Except Fault State}
    (h : ∀ a, SameAnswer (f a) (g a)) : SameAnswer (x >>= f) (x >>= g) := by
  cases x with
  | ok a => exact h a
  | error e => exact .error e

section SameStage

variable {s t s' : State}

/-! ### The updates of the state -/

theorem State.SameStage.symm (h : s.SameStage t) : t.SameStage s := by
  simp_all [State.SameStage]

theorem State.SameStage.memWrite (h : s.SameStage t) (d v : Int) : (s.memWrite d v).SameStage (t.memWrite d v) := by
  simp_all [State.SameStage]

theorem State.SameStage.emit (h : s.SameStage t) (e : Event) : (s.emit e).SameStage (t.emit e) := by
  simp_all [State.SameStage]

theorem State.SameStage.advance (h : s.SameStage t) (n : Int) : (s.advance n).SameStage (t.advance n) := by
  simp_all [State.SameStage]

theorem State.SameStage.raise (h : s.SameStage t) (f : Fault) : (s.raise f).SameStage (t.raise f) := by
  simp_all [State.SameStage]

theorem State.SameStage.takeOffer (h : s.SameStage t) : s.takeOffer.SameStage t.takeOffer := by
  simp_all [State.SameStage]

theorem State.SameStage.deliver (h : s.SameStage t) (x : Int) : (s.deliver x).SameStage (t.deliver x) := by
  simp_all [State.SameStage]

theorem State.SameStage.setPc (h : s.SameStage t) (u : Int) :
    State.SameStage { s with pc := u } { t with pc := u } := by
  obtain ⟨hs, ht, hcfg, hmem, -, hrest⟩ := h
  exact ⟨hs, ht, hcfg, hmem, rfl, hrest⟩

/-! ### The fields -/

theorem State.SameStage.cfg (h : s.SameStage t) : s.cfg = t.cfg := by
  obtain ⟨-, -, hcfg, -⟩ := h
  exact hcfg

theorem State.SameStage.mem (h : s.SameStage t) : s.mem = t.mem := by
  obtain ⟨-, -, -, hmem, -⟩ := h
  exact hmem

theorem State.SameStage.pc (h : s.SameStage t) : s.pc = t.pc := by
  obtain ⟨-, -, -, -, hpc, -⟩ := h
  exact hpc

theorem State.SameStage.status (h : s.SameStage t) : s.status = t.status := by
  obtain ⟨-, -, -, -, -, hstatus, -⟩ := h
  exact hstatus

theorem State.SameStage.busy (h : s.SameStage t) : s.busy = true ∧ t.busy = true := by
  obtain ⟨hs, ht, -⟩ := h
  exact ⟨hs, ht⟩

theorem State.SameStage.counts (h : s.SameStage t) : s.fed = t.fed ∧ s.outs = t.outs := by
  obtain ⟨-, -, -, -, -, -, -, -, -, -, hfed, houts, -⟩ := h
  exact ⟨hfed, houts⟩

theorem State.SameStage.connections (h : s.SameStage t) : s.inConn = t.inConn ∧ s.outConn = t.outConn := by
  obtain ⟨-, -, -, -, -, -, hin, hout, -⟩ := h
  exact ⟨hin, hout⟩

/-! ### What the operations find -/

theorem State.SameStage.fetch (h : s.SameStage t) : s.fetch = t.fetch :=
  State.fetch_congr h.mem h.pc

theorem State.SameStage.val (h : s.SameStage t) (m : Mode) (x : Int) : s.val m x = t.val m x := by
  simp only [State.val, State.memRead, h.mem, h.pc]

theorem State.SameStage.dst (h : s.SameStage t) (x : Int) : s.dst x = t.dst x := by
  simp only [State.dst, h.mem, h.pc]

theorem State.SameStage.integerLaw (h : s.SameStage t) (op : ArithOp) (a b r : Int) :
    s.integerLaw op a b r = t.integerLaw op a b r := by
  simp only [State.integerLaw, h.cfg, h.pc]

/-- The feeders of the two stages offer alike: both busy, with the same phase, carry and count (R92). -/
theorem State.SameStage.peerOffer (h : s.SameStage t) : s.peerOffer = t.peerOffer := by
  obtain ⟨hs, ht, -, -, -, -, -, -, -, hcarry, hfed, -, hphase⟩ := h
  rw [State.peerOffer_of_busy hs, State.peerOffer_of_busy ht, State.feederOffer, State.feederOffer, hcarry, hfed, hphase]

/-- Both drainers are ready (R93). -/
theorem State.SameStage.peerReady (h : s.SameStage t) : s.peerReady = t.peerReady := by
  obtain ⟨hs, ht⟩ := h.busy
  rw [State.peerReady_of_busy hs, State.peerReady_of_busy ht]

/-! ### The meanings -/

theorem State.SameStage.complete {x y : Except Fault State} (h : s.SameStage t) (hxy : SameAnswer x y)
    (hs : s.complete x = .next s') : ∃ t', t.complete y = .next t' ∧ s'.SameStage t' := by
  cases hxy with
  | ok hok => cases hs; exact ⟨_, rfl, hok⟩
  | error f => cases hs; exact ⟨_, rfl, h.raise f⟩

theorem State.SameStage.binary (h : s.SameStage t) (m1 m2 : Mode) (a b c : Int) (e : Int → Int → Except Fault Int) :
    SameAnswer (s.binary m1 m2 a b c e) (t.binary m1 m2 a b c e) := by
  simp only [State.binary, h.val, h.dst]
  exact .bind fun x => .bind fun y => .bind fun d => .bind fun r => .ok ((h.memWrite d r).advance 4)

theorem State.SameStage.condJump (h : s.SameStage t) (pol : Bool) (m1 m2 : Mode) (a b : Int) :
    SameAnswer (s.condJump pol m1 m2 a b) (t.condJump pol m1 m2 a b) := by
  simp only [State.condJump, h.val]
  refine .bind fun p => ?_
  split
  · exact .bind fun u => .ok (h.setPc u)
  · exact .ok (h.advance 3)

theorem State.SameStage.execIn {a : Int} (h : s.SameStage t) (hs : execIn a s = .next s') :
    ∃ t', execIn a t = .next t' ∧ s'.SameStage t' := by
  refine h.complete ?_ hs
  obtain ⟨hin, -⟩ := h.connections
  rw [h.dst, hin, h.peerOffer, h.pc]
  refine .bind fun d => ?_
  split
  · split
    · exact .ok (((h.takeOffer.memWrite d _).emit _).advance 2)
    · exact .ok h
  · exact .error _

theorem State.SameStage.execOut {m : Mode} {a : Int} (h : s.SameStage t) (hs : execOut m a s = .next s') :
    ∃ t', execOut m a t = .next t' ∧ s'.SameStage t' := by
  refine h.complete ?_ hs
  obtain ⟨-, hout⟩ := h.connections
  rw [h.val, hout, h.peerReady, h.pc]
  refine .bind fun x => ?_
  split
  · split
    · exact .ok (((h.deliver x).emit _).advance 2)
    · exact .ok h
  · exact .error _

theorem State.SameStage.execHlt (h : s.SameStage t) (hs : execHlt s = .next s') :
    ∃ t', execHlt t = .next t' ∧ s'.SameStage t' := by
  cases hs
  obtain ⟨hs, ht, hcfg, hmem, hpc, -, hrest⟩ := h
  have hhalted : State.SameStage { s with status := .halted } { t with status := .halted } :=
    ⟨hs, ht, hcfg, hmem, hpc, rfl, hrest⟩
  exact ⟨_, rfl, (hhalted.emit .halt).advance 1⟩

theorem State.SameStage.exec {i : Instr} (h : s.SameStage t) (hs : exec i s = .next s') :
    ∃ t', exec i t = .next t' ∧ s'.SameStage t' := by
  cases i with
  | add m1 m2 a b c =>
    rw [exec_add] at hs ⊢
    simp only [h.integerLaw] at hs
    exact h.complete (h.binary ..) hs
  | mul m1 m2 a b c =>
    rw [exec_mul] at hs ⊢
    simp only [h.integerLaw] at hs
    exact h.complete (h.binary ..) hs
  | lt m1 m2 a b c => exact h.complete (h.binary ..) (exec_lt m1 m2 a b c s ▸ hs)
  | eq m1 m2 a b c => exact h.complete (h.binary ..) (exec_eq m1 m2 a b c s ▸ hs)
  | jt m1 m2 a b => exact h.complete (h.condJump ..) hs
  | jf m1 m2 a b => exact h.complete (h.condJump ..) hs
  | inp a => exact h.execIn hs
  | out m a => exact h.execOut hs
  | hlt => exact h.execHlt hs

theorem State.SameStage.decodeFailure (h : s.SameStage t) (v : Int) :
    (s.decodeFailure v).SameStage (t.decodeFailure v) := by
  rw [State.decodeFailure, State.decodeFailure, h.cfg, h.pc]
  split
  · exact h.raise _
  · exact (h.emit _).advance 1

theorem State.SameStage.engineStep (h : s.SameStage t) (hs : engineStep s = .next s') :
    ∃ t', engineStep t = .next t' ∧ s'.SameStage t' := by
  unfold Machine.engineStep at hs ⊢
  rw [← h.fetch]
  split at hs
  · exact h.exec hs
  · cases hs; exact ⟨_, rfl, h.decodeFailure _⟩
  · cases hs; exact ⟨_, rfl, h.raise _⟩

end SameStage

/-- Settles O59: the core's turn of a Running machine is its engine step, which answers alike in two states of one
stage. -/
theorem stageDependsOnlyOnItsInputs : Obligations.StageDependsOnlyOnItsInputs := by
  intro s t s' h hcs hct hr hs
  rw [step_of_running hcs hr] at hs
  rw [step_of_running hct (h.status ▸ hr)]
  exact State.SameStage.engineStep (s := s.turnTaken) (t := t.turnTaken) h hs

/-! ## The carry chain (R89)

A run keeps a loop invariant that ties its current stage to the single stage of the chain's link; and the run can follow each
link of a chain, whatever the host's turns in between. -/

/-! ### What a turn does to the arbiter's run -/

section Run

variable {s t : State}

theorem coreTurn_of_running (hr : s.status = .running) : coreTurn s = engineStep s := by
  rw [coreTurn, hr]

theorem coreTurn_of_stageHalted (hb : s.busy = true) (hs : s.status = .halted) : coreTurn s = .next s.stageHalted := by
  rw [coreTurn, hs]
  exact congrArg Host.Outcome.next (if_pos hb)

theorem step_of_no_turns (h : s.turns = []) : step s = coreTurn s := by
  rw [step_of_core (by rw [State.coreIsNext, h]), State.turnTaken_of_no_turns h]

/-- An engine step writes nothing of the arbiter but what its feeder and drainer count. -/
theorem arbiter_of_engineStep (h : engineStep s = .next t) :
    t.astatus = s.astatus ∧ t.k = s.k ∧ t.carry = s.carry ∧ t.img = s.img ∧ t.nStages = s.nStages ∧
      t.phases = s.phases ∧ t.turns = s.turns := by
  rcases engineStep_cases h with ⟨i, -, h⟩ | ⟨v, -, rfl⟩ | ⟨f, -, rfl⟩
  · obtain ⟨-, -, -, -, hastatus, hk, hcarry, himg, hn, hphases, hturns, -⟩ := instructionFrame i s t h
    exact ⟨hastatus, hk, hcarry, himg, hn, hphases, hturns⟩
  · rcases s.decodeFailure_cases v with e | e <;> rw [e] <;> exact ⟨rfl, rfl, rfl, rfl, rfl, rfl, rfl⟩
  · exact ⟨rfl, rfl, rfl, rfl, rfl, rfl, rfl⟩

theorem busy_of_engineStep (h : engineStep s = .next t) : t.busy = s.busy := by
  obtain ⟨hastatus, -⟩ := arbiter_of_engineStep h
  rw [State.busy, State.busy, hastatus]

theorem Effect.fed_le_two {i : Instr} (e : Effect s i t) (hb : s.busy = true) (hf : s.fed ≤ 2) : t.fed ≤ 2 := by
  cases e with
  | receive d x _ _ hx =>
    have hlt : s.fed < 2 := by
      rcases State.feederOffer_eq_some ((State.peerOffer_of_busy hb).symm.trans hx) with ⟨h, -⟩ | ⟨h, -⟩ <;> omega
    simpa [hb] using hlt
  | send m a x => simpa using hf
  | _ => exact hf

/-- The feeder gives at most two inputs (R92). -/
theorem fed_le_two_of_engineStep (h : engineStep s = .next t) (hb : s.busy = true) (hf : s.fed ≤ 2) : t.fed ≤ 2 := by
  rcases engineStep_cases h with ⟨i, -, h⟩ | ⟨v, -, rfl⟩ | ⟨f, -, rfl⟩
  · exact (exec_effect h).fed_le_two hb hf
  · rcases s.decodeFailure_cases v with e | e <;> rw [e] <;> exact hf
  · exact hf

@[simp] theorem State.k_nextStage (s : State) : s.nextStage.k = s.k := by
  unfold State.nextStage; split <;> rfl

@[simp] theorem State.turns_nextStage (s : State) : s.nextStage.turns = s.turns := by
  unfold State.nextStage; split <;> rfl

@[simp] theorem State.turns_stageHalted (s : State) : s.stageHalted.turns = s.turns := by
  rcases s.stageHalted_cases with ⟨g, e⟩ | ⟨r, -, -, e⟩ <;> simp [e]

/-- No turn that the host has still to take powers up, starts a run, or puts an image on the port. -/
def State.HostKeepsRun (s : State) : Prop := ∀ act, Turn.host act ∈ s.turns → act.keepsRun = true

theorem State.HostKeepsRun.of_cons {u : Turn} {rest : List Turn} (h : s.HostKeepsRun) (hs : s.turns = u :: rest) :
    State.HostKeepsRun { s with turns := rest } :=
  fun act hact => h act (hs ▸ List.mem_cons_of_mem u hact)

theorem State.HostKeepsRun.of_turns_eq_tail (h : s.HostKeepsRun) (ht : t.turns = s.turns.tail) : t.HostKeepsRun :=
  fun act hact => h act (List.mem_of_mem_tail (ht ▸ hact))

theorem State.HostKeepsRun.turns_of_step (hk : s.HostKeepsRun) (h : step s = .next t) : t.turns = s.turns.tail := by
  rcases step_cases h with ⟨-, h⟩ | ⟨act, rest, hact, rfl⟩
  · rcases coreTurn_cases h with ⟨-, h⟩ | ⟨-, -, rfl⟩ | ⟨-, -, rfl⟩ | ⟨f, -, -, rfl⟩
    · obtain ⟨-, -, -, -, -, -, hturns⟩ := arbiter_of_engineStep h
      exact hturns
    · rfl
    · exact State.turns_stageHalted _
    · rfl
  · obtain ⟨-, -, hturns, -⟩ := State.hostTurn_keepsRun (s := s.turnTaken) (hk act (by simp [hact]))
    exact hturns

/-- A turn in a stage: one of the host, which changes nothing, an engine step, or the end of the stage. -/
theorem step_cases_of_busy (hb : s.busy = true) (hk : s.HostKeepsRun) (h : step s = .next t) :
    t = s.turnTaken ∨ (s.status = .running ∧ engineStep s.turnTaken = .next t) ∨
    (s.status = .halted ∧ t = s.turnTaken.stageHalted) ∨ ∃ g, t = s.turnTaken.arbiterRaise g := by
  rcases step_cases h with ⟨-, h⟩ | ⟨act, rest, hact, rfl⟩
  · rcases coreTurn_cases h with ⟨hr, h⟩ | ⟨-, hb', -⟩ | ⟨hs, -, rfl⟩ | ⟨f, -, -, rfl⟩
    · exact .inr (.inl ⟨hr, h⟩)
    · exact nomatch hb.symm.trans hb'
    · exact .inr (.inr (.inl ⟨hs, rfl⟩))
    · exact .inr (.inr (.inr ⟨_, rfl⟩))
  · obtain ⟨-, -, -, hkeep⟩ := State.hostTurn_keepsRun (s := s.turnTaken) (hk act (by simp [hact]))
    exact .inl (hkeep hb)

/-- Once the arbiter has ended a run, its status stands (R98, 60_exceptions R105). -/
theorem astatus_of_step_of_not_busy (hb : s.busy = false) (hk : s.HostKeepsRun) (h : step s = .next t) :
    t.astatus = s.astatus := by
  rcases step_cases h with ⟨-, h⟩ | ⟨act, rest, hact, rfl⟩
  · rcases coreTurn_cases h with ⟨-, h⟩ | ⟨-, -, rfl⟩ | ⟨-, hb', -⟩ | ⟨f, -, hb', -⟩
    · obtain ⟨hastatus, -⟩ := arbiter_of_engineStep h
      exact hastatus
    · rfl
    · exact nomatch hb.symm.trans hb'
    · exact nomatch hb.symm.trans hb'
  · obtain ⟨hastatus, -⟩ := State.hostTurn_keepsRun (s := s.turnTaken) (hk act (by simp [hact]))
    exact hastatus

end Run

/-! ### The run of a phase list -/

/-- `s` is a state of a run of `phases` on `img`, and the host keeps to it. -/
structure State.RunOf (cfg : Config) (img phases : List Int) (s : State) : Prop where
  cfg_eq : s.cfg = cfg
  img_eq : s.img = img
  phases_eq : s.phases = phases
  nStages_eq : s.nStages = phases.length
  host : s.HostKeepsRun

section RunOf

variable {cfg : Config} {img phases : List Int} {s t : State} {p : Int}

theorem State.RunOf.turnTaken (h : s.RunOf cfg img phases) : s.turnTaken.RunOf cfg img phases :=
  ⟨h.cfg_eq, h.img_eq, h.phases_eq, h.nStages_eq, h.host.of_turns_eq_tail rfl⟩

theorem State.RunOf.engineStep (h : s.RunOf cfg img phases) (hs : engineStep s = .next t) : t.RunOf cfg img phases := by
  obtain ⟨-, -, -, himg, hn, hphases, hturns⟩ := arbiter_of_engineStep hs
  exact ⟨(cfg_of_engineStep hs).trans h.cfg_eq, himg.trans h.img_eq, hphases.trans h.phases_eq, hn.trans h.nStages_eq,
    fun act hact => h.host act (hturns ▸ hact)⟩

/-- The state at the top of the loop of R89, with the stage's output `r` as the carry and the next index. -/
theorem State.RunOf.withCarry (h : s.RunOf cfg img phases) (r : Int) :
    State.RunOf cfg img phases { s with carry := r, k := s.k + 1 } :=
  ⟨h.cfg_eq, h.img_eq, h.phases_eq, h.nStages_eq, h.host⟩

theorem State.RunOf.withTurns (h : s.RunOf cfg img phases) {turns : List Turn}
    (hturns : State.HostKeepsRun { s with turns := turns }) : State.RunOf cfg img phases { s with turns := turns } :=
  ⟨h.cfg_eq, h.img_eq, h.phases_eq, h.nStages_eq, hturns⟩

theorem State.RunOf.nextStage (h : s.RunOf cfg img phases) : s.nextStage.RunOf cfg img phases := by
  unfold State.nextStage
  split <;> exact ⟨h.cfg_eq, h.img_eq, h.phases_eq, h.nStages_eq, h.host⟩

theorem State.RunOf.lt_of_phase (h : s.RunOf cfg img phases) (hp : phases[s.k]? = some p) : s.k < s.nStages := by
  obtain ⟨hlt, -⟩ := List.getElem?_eq_some_iff.mp hp
  exact h.nStages_eq ▸ hlt

/-- A stage of the run is at its start the single stage of its phase and carry (R91). -/
theorem State.RunOf.sameStage_nextStage (h : s.RunOf cfg img phases) (hp : phases[s.k]? = some p) :
    (stageStart cfg img p s.carry).SameStage s.nextStage := by
  have hphase : s.phases[s.k]? = some p := h.phases_eq ▸ hp
  rw [State.nextStage_of_lt (h.lt_of_phase hp)]
  exact ⟨rfl, rfl, h.cfg_eq.symm, by rw [← h.img_eq]; rfl, rfl, rfl, rfl, rfl, rfl, rfl, rfl, rfl, hphase.symm⟩

theorem drop_eq_cons_iff {k : Nat} {ps : List Int} :
    phases.drop k = p :: ps ↔ phases[k]? = some p ∧ phases.drop (k + 1) = ps := by
  constructor
  · intro h
    have hhead := List.getElem?_drop (xs := phases) (i := k) (j := 0)
    exact ⟨hhead.symm.trans (by rw [h]; rfl), by simpa using congrArg List.tail h⟩
  · rintro ⟨hp, rfl⟩
    obtain ⟨hlt, rfl⟩ := List.getElem?_eq_some_iff.mp hp
    exact List.drop_eq_getElem_cons hlt

theorem State.nextStage_withTurns (s : State) (turns : List Turn) :
    { s.nextStage with turns := turns } = State.nextStage { s with turns := turns } := by
  rcases Nat.lt_or_ge s.k s.nStages with h | h
  · rw [State.nextStage_of_lt h, State.nextStage_of_lt (s := { s with turns := turns }) h]
    rfl
  · rw [State.nextStage_of_ge h, State.nextStage_of_ge (s := { s with turns := turns }) h]

/-- The start of a run is the top of the loop with the index and the carry 0 (10_state R26). -/
theorem exists_runOf_start (cfg : Config) (img phases : List Int) {turns : List Turn}
    (h : ∀ act, Turn.host act ∈ turns → act.keepsRun = true) :
    ∃ s : State, s.RunOf cfg img phases ∧ s.k = 0 ∧ s.carry = 0 ∧
      { (State.powered cfg).startRun img phases.length phases with turns := turns } = s.nextStage := by
  refine ⟨{ State.powered cfg with img := img, nStages := phases.length, phases := phases, turns := turns },
    ⟨rfl, rfl, rfl, rfl, h⟩, rfl, rfl, ?_⟩
  rw [State.startRun, if_pos rfl, State.nextStage_withTurns]
  rfl

end RunOf

/-! ### Every run stays on the chain -/

/-- The single stage `u` of the phase `p` and the carry of `s` goes along with the stage that runs in `s`. -/
structure State.TrackedBy (cfg : Config) (img : List Int) (p : Int) (s u : State) : Prop where
  reaches : Reaches (stageStart cfg img p s.carry) u
  no_turns : u.turns = []
  fed_le : u.fed ≤ 2
  same : u.SameStage s

/-- The chain of the phases from the index of `s` on, from its carry, is the end of the whole chain. -/
def State.EndsChain (cfg : Config) (img phases : List Int) (s : State) : Prop :=
  ∀ r, CarryChain cfg img (phases.drop s.k) s.carry r → CarryChain cfg img phases 0 r

/-- The loop invariant of R89: a stage in progress is a link of the chain, and a run that is done has its last carry. -/
inductive State.OnChain (cfg : Config) (img phases : List Int) : State → Prop where
  | stage {s u : State} {p : Int} : s.RunOf cfg img phases → phases[s.k]? = some p → s.TrackedBy cfg img p u →
      s.EndsChain cfg img phases → OnChain cfg img phases s
  | done {s : State} {r : Int} : s.HostKeepsRun → s.astatus = .done r → CarryChain cfg img phases 0 r →
      OnChain cfg img phases s
  | afaulted {s : State} {g : ArbiterFault} : s.HostKeepsRun → s.astatus = .afaulted g → OnChain cfg img phases s

section OnChain

variable {cfg : Config} {img phases : List Int} {s t u : State} {p r : Int}

theorem State.TrackedBy.turnTaken (h : s.TrackedBy cfg img p u) : s.turnTaken.TrackedBy cfg img p u :=
  ⟨h.reaches, h.no_turns, h.fed_le, h.same⟩

theorem State.TrackedBy.engineStep (h : s.TrackedBy cfg img p u) (hr : s.status = .running)
    (hs : engineStep s = .next t) : ∃ u', t.TrackedBy cfg img p u' := by
  obtain ⟨u', hu, hsame⟩ := h.same.symm.engineStep hs
  obtain ⟨-, -, hcarry, -⟩ := arbiter_of_engineStep hs
  obtain ⟨-, -, -, -, -, -, hturns⟩ := arbiter_of_engineStep hu
  obtain ⟨hb, -⟩ := h.same.busy
  have hstep : step u = .next u' := by
    rw [step_of_no_turns h.no_turns, coreTurn_of_running (h.same.status.trans hr), hu]
  exact ⟨u', hcarry ▸ h.reaches.step hstep, hturns.trans h.no_turns, fed_le_two_of_engineStep hu hb h.fed_le,
    hsame.symm⟩

theorem State.TrackedBy.stageEmits (h : s.TrackedBy cfg img p u) (hs : s.status = .halted) (hf : 2 ≤ s.fed)
    (ho : s.outs = [r]) : StageEmits cfg img p s.carry r := by
  obtain ⟨hb, -⟩ := h.same.busy
  obtain ⟨hfed, houts⟩ := h.same.counts
  exact ⟨u, h.reaches, hb, h.same.status.trans hs, Nat.le_antisymm h.fed_le (hfed ▸ hf), houts.trans ho⟩

/-- The top of the loop, with the chain from there as the end of the whole chain. -/
theorem State.OnChain.nextStage (h : s.RunOf cfg img phases) (hchain : s.EndsChain cfg img phases) :
    s.nextStage.OnChain cfg img phases := by
  have hnext := h.nextStage
  cases hp : phases[s.k]? with
  | some p =>
    have hsame := h.sameStage_nextStage hp
    rw [State.nextStage_of_lt (h.lt_of_phase hp)] at hsame hnext ⊢
    exact .stage hnext hp ⟨.refl _, rfl, Nat.zero_le 2, hsame⟩ hchain
  | none =>
    have hge : phases.length ≤ s.k := List.getElem?_eq_none_iff.mp hp
    rw [State.nextStage_of_ge (h.nStages_eq ▸ hge)] at hnext ⊢
    exact .done hnext.host rfl (hchain _ (by rw [List.drop_eq_nil_of_le hge]; rfl))

theorem State.OnChain.engineStep (h : s.RunOf cfg img phases) (hp : phases[s.k]? = some p)
    (htrack : s.TrackedBy cfg img p u) (hchain : s.EndsChain cfg img phases)
    (hr : s.status = .running) (hs : engineStep s = .next t) : t.OnChain cfg img phases := by
  obtain ⟨u', htrack'⟩ := htrack.engineStep hr hs
  obtain ⟨-, hk, hcarry, -⟩ := arbiter_of_engineStep hs
  exact .stage (h.engineStep hs) (hk ▸ hp) htrack' (by rwa [State.EndsChain, hk, hcarry])

/-- A stage that ends with one output puts its link in front of the rest of the chain. -/
theorem State.OnChain.stageHalted (h : s.RunOf cfg img phases) (hp : phases[s.k]? = some p)
    (htrack : s.TrackedBy cfg img p u) (hchain : s.EndsChain cfg img phases)
    (hs : s.status = .halted) : s.stageHalted.OnChain cfg img phases := by
  rcases s.stageHalted_cases with ⟨g, e⟩ | ⟨c, hf, ho, e⟩ <;> rw [e]
  · exact .afaulted h.host rfl
  · refine .nextStage (h.withCarry c) fun r hr => hchain r ?_
    rw [drop_eq_cons_iff.mpr ⟨hp, rfl⟩]
    exact ⟨c, htrack.stageEmits hs hf ho, hr⟩

theorem State.OnChain.step (h : s.OnChain cfg img phases) (hs : step s = .next t) : t.OnChain cfg img phases := by
  cases h with
  | done hk hd hc =>
    have hb : s.busy = false := by rw [State.busy, hd]
    exact .done (hk.of_turns_eq_tail (hk.turns_of_step hs)) ((astatus_of_step_of_not_busy hb hk hs).trans hd) hc
  | afaulted hk hg =>
    exact .afaulted (hk.of_turns_eq_tail (hk.turns_of_step hs))
      ((astatus_of_step_of_not_busy (State.busy_of_afaulted hg) hk hs).trans hg)
  | stage hrun hp htrack hchain =>
    have htaken := htrack.turnTaken
    obtain ⟨-, hb⟩ := htrack.same.busy
    rcases step_cases_of_busy hb hrun.host hs with rfl | ⟨hr, he⟩ | ⟨hh, rfl⟩ | ⟨g, rfl⟩
    · exact .stage hrun.turnTaken hp htaken hchain
    · exact .engineStep hrun.turnTaken hp htaken hchain hr he
    · exact .stageHalted hrun.turnTaken hp htaken hchain hh
    · exact .afaulted hrun.turnTaken.host rfl

theorem State.OnChain.reaches (h : s.OnChain cfg img phases) (hs : Reaches s t) : t.OnChain cfg img phases := by
  induction hs with
  | refl => exact h
  | step _ hstep ih => exact ih.step hstep

theorem State.OnChain.carryChain_of_done (h : s.OnChain cfg img phases) (hd : s.astatus = .done r) :
    CarryChain cfg img phases 0 r := by
  cases h with
  | done _ hd' hc => cases hd.symm.trans hd'; exact hc
  | afaulted _ hg => exact nomatch hd.symm.trans hg
  | stage _ _ htrack _ =>
    obtain ⟨-, hb⟩ := htrack.same.busy
    exact nomatch hd.symm.trans (State.busy_iff.mp hb)

end OnChain

/-! ### Every chain has its run -/

theorem Reaches.trans {s t u : State} (h : Reaches s t) (h' : Reaches t u) : Reaches s u := by
  induction h' with
  | refl => exact h
  | step _ hs ih => exact ih.step hs

section Follow

variable {cfg : Config} {img phases : List Int} {s t u : State} {p r : Int}

/-- In a stage the host's turns pass without effect, and the core's comes. -/
theorem exists_turns_before_coreTurn (hb : s.busy = true) (hk : s.HostKeepsRun) :
    ∃ turns, State.HostKeepsRun { s with turns := turns } ∧
      ∀ t, coreTurn { s with turns := turns } = .next t → Reaches s t := by
  generalize hts : s.turns = ts
  induction ts generalizing s with
  | nil => exact ⟨[], nofun, fun t ht => (Reaches.refl s).step (by rw [step_of_no_turns hts, ← ht, ← hts])⟩
  | cons turn rest ih =>
    have hrest := hk.of_cons hts
    cases turn with
    | core => exact ⟨rest, hrest, fun t ht => (Reaches.refl s).step (by rw [step, hts]; exact ht)⟩
    | host act =>
      obtain ⟨turns, hturns, hreach⟩ := ih (s := { s with turns := rest }) hb hrest rfl
      obtain ⟨-, -, -, hkeep⟩ := State.hostTurn_keepsRun (s := { s with turns := rest }) (hk act (by simp [hts]))
      have hstep : step s = .next { s with turns := rest } := by rw [step_of_host_cons hts, hkeep hb]
      exact ⟨turns, hturns, fun t ht => ((Reaches.refl s).step hstep).trans (hreach t ht)⟩

/-- The stage of `s`, where one is in progress, is the last of its run, and no turn is listed. -/
def State.Single (s : State) : Prop := s.turns = [] ∧ s.nStages ≤ s.k + 1

/-- A step of the last stage that stays in a stage is an engine step: there is no stage to come. -/
theorem State.Single.step (h : s.Single) (hs : step s = .next t) :
    t.Single ∧ (t.busy = true → s.busy = true ∧ s.status = .running ∧ engineStep s = .next t) := by
  obtain ⟨hturns, hn⟩ := h
  rw [step_of_no_turns hturns] at hs
  rcases coreTurn_cases hs with ⟨hr, he⟩ | ⟨-, hb, rfl⟩ | ⟨-, -, rfl⟩ | ⟨f, -, -, rfl⟩
  · obtain ⟨-, hk, -, -, hn', -, hturns'⟩ := arbiter_of_engineStep he
    exact ⟨⟨hturns'.trans hturns, by rwa [hk, hn']⟩, fun hb => ⟨(busy_of_engineStep he) ▸ hb, hr, he⟩⟩
  · exact ⟨⟨hturns, hn⟩, fun hb' => nomatch hb.symm.trans hb'⟩
  · rcases s.stageHalted_cases with ⟨g, e⟩ | ⟨r, -, -, e⟩
    · rw [e]
      exact ⟨⟨hturns, hn⟩, nofun⟩
    · rw [e, State.nextStage_of_ge (s := { s with carry := r, k := s.k + 1 }) hn]
      exact ⟨⟨hturns, Nat.le_succ_of_le hn⟩, nofun⟩
  · exact ⟨⟨hturns, hn⟩, nofun⟩

theorem State.Single.reaches (h : s.Single) (hs : Reaches s t) : t.Single := by
  induction hs with
  | refl => exact h
  | step _ hstep ih =>
    obtain ⟨hsingle, -⟩ := ih.step hstep
    exact hsingle

/-- As far as a single stage comes, the run's stage that starts like it comes (R101). -/
theorem State.RunOf.follows_single (h : t.RunOf cfg img phases) (hsingle : s.Single) (hsame : s.SameStage t)
    (hs : Reaches s u) (hb : u.busy = true) :
    ∃ v, Reaches t v ∧ v.RunOf cfg img phases ∧ v.k = t.k ∧ u.SameStage v := by
  induction hs with
  | refl => exact ⟨t, .refl t, h, rfl, hsame⟩
  | @step u u' hu hstep ih =>
    obtain ⟨-, hrunning⟩ := (hsingle.reaches hu).step hstep
    obtain ⟨hbu, hr, he⟩ := hrunning hb
    obtain ⟨v, hv, hrun, hk, hsamev⟩ := ih hbu
    obtain ⟨turns, hturns, hnext⟩ := exists_turns_before_coreTurn hsamev.busy.2 hrun.host
    obtain ⟨v', hv', hsame'⟩ := State.SameStage.engineStep (t := { v with turns := turns }) hsamev he
    obtain ⟨-, hk', -⟩ := arbiter_of_engineStep hv'
    have hcore := coreTurn_of_running (s := { v with turns := turns }) (hsamev.status.symm.trans hr)
    exact ⟨v', hv.trans (hnext v' (hcore.trans hv')), (hrun.withTurns hturns).engineStep hv', hk'.trans hk, hsame'⟩

/-- A link of the chain takes the run from the top of the loop to the next (R93, R94). -/
theorem State.RunOf.reaches_next_of_stageEmits (h : s.RunOf cfg img phases) (hp : phases[s.k]? = some p)
    (he : StageEmits cfg img p s.carry r) :
    ∃ t : State, t.RunOf cfg img phases ∧ t.k = s.k + 1 ∧ t.carry = r ∧ Reaches s.nextStage t.nextStage := by
  obtain ⟨u, hu, hb, hs, hf, ho⟩ := he
  have hsingle : (stageStart cfg img p s.carry).Single := ⟨rfl, Nat.le_refl 1⟩
  obtain ⟨v, hv, hrun, hk, hsame⟩ := h.nextStage.follows_single hsingle (h.sameStage_nextStage hp) hu hb
  obtain ⟨hfed, houts⟩ := hsame.counts
  obtain ⟨turns, hturns, hnext⟩ := exists_turns_before_coreTurn hsame.busy.2 hrun.host
  refine ⟨_, (hrun.withTurns hturns).withCarry r, ?_, rfl, hv.trans (hnext _ ?_)⟩
  · rw [hk, State.k_nextStage]
  · rw [coreTurn_of_stageHalted (s := { v with turns := turns }) hsame.busy.2 (hsame.status.symm.trans hs),
      State.stageHalted_of_one_output (s := { v with turns := turns }) (hfed.symm.trans hf).ge (houts.symm.trans ho)]

theorem State.RunOf.reaches_done_of_carryChain (h : s.RunOf cfg img phases)
    (hc : CarryChain cfg img (phases.drop s.k) s.carry r) : ∃ t, Reaches s.nextStage t ∧ t.astatus = .done r := by
  generalize hps : phases.drop s.k = ps at hc
  induction ps generalizing s with
  | nil =>
    have hge : phases.length ≤ s.k := List.drop_eq_nil_iff.mp hps
    rw [State.nextStage_of_ge (h.nStages_eq ▸ hge)]
    exact ⟨_, .refl _, congrArg ArbiterStatus.done (Eq.symm hc)⟩
  | cons p ps ih =>
    obtain ⟨c, he, hc⟩ := hc
    obtain ⟨hp, hdrop⟩ := drop_eq_cons_iff.mp hps
    obtain ⟨t, hrun, hk, rfl, hreach⟩ := h.reaches_next_of_stageEmits hp he
    obtain ⟨u, hu, hd⟩ := ih hrun (hk ▸ hdrop) hc
    exact ⟨u, hreach.trans hu, hd⟩

end Follow

/-- Settles O60: a run that is done is on the chain, and the chain is followed link by link. -/
theorem pipelineComputesCarryChain : Obligations.PipelineComputesCarryChain := by
  intro cfg img phases r turns hturns
  obtain ⟨s, hrun, hk, hcarry, hstart⟩ := exists_runOf_start cfg img phases hturns
  rw [hstart]
  constructor
  · rintro ⟨t, ht, hd⟩
    have hon : s.nextStage.OnChain cfg img phases :=
      .nextStage hrun fun c hc => by simpa only [hk, hcarry, List.drop_zero] using hc
    exact (hon.reaches ht).carryChain_of_done hd
  · intro hc
    exact hrun.reaches_done_of_carryChain (by simpa only [hk, hcarry, List.drop_zero] using hc)

end Sys2Proof.Machine

/-! SUPPORT. Proofs of the families 60_exceptions and 70_reset_and_hazards: a stopped machine (R113), a reset with an image and
the empty image (R114), and an accepted start (R115). -/

namespace Sys2Proof.Machine

/-- Settles O48: a stopped machine takes no step of its own, so the step is a turn that changes nothing, or one of the host
that does not rebuild, and that leaves the machine alone. -/
theorem stoppedMachineKeepsItsState : Obligations.StoppedMachineKeepsItsState := by
  intro s t hs hk h
  rcases step_cases_of_not_rebuilds h hk with ⟨-, hr, -⟩ | ⟨-, -, rfl⟩ | ⟨act, rest, -, hact, rfl⟩
  · exact absurd hr hs
  · exact ⟨rfl, rfl, rfl, rfl⟩
  · rw [State.hostTurn_frame _ hact]
    exact ⟨rfl, rfl, rfl, rfl⟩

/-! ## Reset with an image (R114) -/

theorem State.hostTurn_reset {s : State} {img : List Int} (hb : s.busy = false)
    (himg : ∀ v ∈ img, inRange s.cfg.width v) : s.hostTurn (.reset img) = s.resetCore img := by
  rw [State.hostTurn, if_pos (HostAct.fits_reset himg)]
  simp [State.hostReset, hb]

/-- Settles O46: the reset loads the image and writes no field of the arbiter. -/
theorem resetLoadsImage : Obligations.ResetLoadsImage := by
  intro s img rest hb himg h
  refine ⟨_, step_of_host_cons h, ?_⟩
  rw [State.hostTurn_reset (s := { s with turns := rest }) hb himg]
  exact ⟨rfl, Memory.read_ofImage img, rfl, rfl, rfl, rfl, rfl, rfl, rfl, rfl, rfl, rfl, rfl, rfl, rfl, rfl⟩

/-- Settles O47: `pc` is 0 and no address is valid, so the fetch of the opcode cell is what fails. -/
theorem emptyImageFaultsAtFetch : Obligations.EmptyImageFaultsAtFetch := by
  have hvalid : ¬ State.reset.mem.Valid State.reset.pc := by decide
  exact ⟨_, fetchOutsideFaults State.reset rfl rfl hvalid, rfl, rfl, rfl, rfl⟩

/-! ## An accepted start (R115, 46_pipeline R91, R98) -/

/-- A start with no stage ends the run at once, with the carry's first value as the result (46_pipeline R98). -/
theorem State.startRun_nil (s : State) (img : List Int) : s.startRun img 0 [] = { s with
      astatus := .done 0, k := 0, carry := 0, fed := 0, outs := [], img := img, nStages := 0, phases := [] } := rfl

/-- A start with a phase builds stage 0 on a fresh machine (46_pipeline R91). -/
theorem State.startRun_cons (s : State) (img : List Int) (p : Int) (ps : List Int) :
    s.startRun img (p :: ps).length (p :: ps) = { s.resetCore img with
      astatus := .stage, k := 0, carry := 0, fed := 0, outs := [], img := img
      nStages := (p :: ps).length, phases := p :: ps } := by
  rw [State.startRun, if_pos rfl, State.nextStage_of_lt (Nat.succ_pos _)]
  rfl

/-- Settles O53: one equation for a start with no stage, and one for a start with stages. -/
theorem startBuildsStageZero : Obligations.StartBuildsStageZero := by
  intro s img phases rest hb himg hphases h
  refine ⟨_, step_of_host_cons h, ?_⟩
  rw [State.hostTurn_start (s := { s with turns := rest }) hb himg hphases]
  cases phases with
  | nil =>
    rw [List.length_nil, State.startRun_nil]
    exact ⟨rfl, rfl, rfl, rfl, rfl, rfl, rfl, fun _ => rfl, fun hne => absurd rfl hne⟩
  | cons p ps =>
    rw [State.startRun_cons]
    exact ⟨rfl, rfl, rfl, rfl, rfl, rfl, rfl, nofun,
      fun _ => ⟨rfl, rfl, Memory.read_ofImage img, rfl, rfl, rfl, rfl, rfl⟩⟩

end Sys2Proof.Machine
